-- ==== Sys2Proof/Word.lean ====
section
/-! DEFINITION. Word.lean: the two element types of the block and the names of its two engines. -/

namespace Sys2Proof

/-- A byte is 8 bits (00_scope.md R6). -/
abbrev Byte := BitVec 8

/-- A code unit is 16 bits, unsigned (00_scope.md R6, R7). -/
abbrev CodeUnit := BitVec 16

/-- The two hardware agents, the Packer and the Unpacker (10_state.md R20). -/
inductive Engine where
  | pk
  | up
  deriving DecidableEq, Repr

end Sys2Proof
end

