-- ==== Sys2Proof/Config.lean ====
section
/-! DEFINITION. Config.lean: the constants D00 fixes and the parameters the spec leaves to an implementation
(00_scope.md R6). A `Config` is plain data, fixed when the block is built (70_reset_and_hazards.md R253). -/

namespace Sys2Proof

/-- `RES_LO`, `RES_HI`: bounds of the reserved high-byte range, inclusive (R6, R9). -/
def resLo : Byte := 0xD8#8
/-- See `resLo`. -/
def resHi : Byte := 0xDF#8

/-- `ESC_HI_BASE`: added to `b0` for the first unit of an escape (R6). -/
def escHiBase : CodeUnit := 0xD800#16
/-- `ESC_LO_BASE`: added to `b1` for the second unit of an escape (R6). -/
def escLoBase : CodeUnit := 0xDC00#16

/-- `PAD`: the byte synthesised as `b1` of the final pair of an odd-length buffer (R6, 20_memory.md R58). -/
def padByte : Byte := 0x00#8

/-- `DIRECT_ORDER`: the order in which `UP.DIR` emits the bytes of a direct unit (R6, 41_unpacker.md R142). -/
inductive DirectOrder where
  | lowFirst
  | highFirst
  deriving DecidableEq, Repr

/-- `UNIT_SERIAL`: how a HOST lays a unit out in byte storage; read by no rule of the block (20_memory.md R56). -/
inductive UnitSerial where
  | le
  | be
  deriving DecidableEq, Repr

/-- The parameters of R6 that are not fixed. `none` is the unbounded reading R6 allows. Nothing ever writes them
(10_state.md R41). -/
structure Config where
  directOrder : DirectOrder
  /-- `PK_CAP`: capacity of `PK.IBUF` in bytes and of `PK.OBUF` in units. -/
  pkCap : Option Nat
  /-- `UP_CAP`: capacity of `UP.IBUF` in units; `UP.OBUF` has twice as many bytes. -/
  upCap : Option Nat
  /-- `LENW`: width in bits of `LEN`, `POS`, `OLEN`. -/
  lenw : Option Nat
  unitSerial : UnitSerial
  deriving DecidableEq, Repr

/-- DESIGN CHOICE (logs 4, 6, 7): the parameters `State.reset` carries: `LOW_FIRST` as the spec decides, no bound on
the buffers, natural-number counters, `LE`. -/
def Config.standard : Config :=
  { directOrder := .lowFirst, pkCap := none, upCap := none, lenw := none, unitSerial := .le }

/-- R6's constraint on an implementation with counters of `LENW` bits: `PK_CAP < 2^LENW` and `2·UP_CAP < 2^LENW`. -/
def Config.Legal (c : Config) : Prop :=
  ∀ w, c.lenw = some w → (∃ p, c.pkCap = some p ∧ p < 2 ^ w) ∧ (∃ u, c.upCap = some u ∧ 2 * u < 2 ^ w)

end Sys2Proof
end

