-- ==== Sys2Proof/Machine/Bits.lean ====
section
/-! DEFINITION. Machine/Bits.lean: the fields of a code unit (00_scope.md R7, R8) and the three unit layouts the
Packer emits (30_encoding.md R86). -/

namespace Sys2Proof.Machine

/-- `low(u) = u[7:0] = u & 0xFF` (R7). -/
def low (u : CodeUnit) : Byte := u.extractLsb' 0 8

/-- `high(u) = u[15:8] = (u >> 8) & 0xFF` (R7). -/
def high (u : CodeUnit) : Byte := u.extractLsb' 8 8

/-- The pair word `{b1, b0} = b1×256 + b0` (30_encoding.md R81), which is also the direct unit `UD` (R86): `b0` in
bits 7:0, `b1` in bits 15:8 (20_memory.md R55). -/
def pairWord (b0 b1 : Byte) : CodeUnit := b1 ++ b0

/-- `UEH`, the first unit of an escape: `0xD800 + b0` (R86, 40_packer.md R113). -/
def escHi (b0 : Byte) : CodeUnit := escHiBase + b0.setWidth 16

/-- `UEL`, the second unit of an escape: `0xDC00 + b1` (R86, R113). -/
def escLo (b1 : Byte) : CodeUnit := escLoBase + b1.setWidth 16

/-- The unit `PK.PAD` emits: `b0` zero-extended to 16 bits (40_packer.md R120). -/
def padUnit (b0 : Byte) : CodeUnit := b0.setWidth 16

end Sys2Proof.Machine
end

