-- ==== Sys2Proof/Machine/Flags.lean ====
section
/-! DEFINITION. Machine/Flags.lean: the block has no flags and no condition codes (10_state.md R39). Its one predicate
is `reserved`, computed afresh in every step, and its one status bit is `RUN`. -/

namespace Sys2Proof.Machine

/-- `reserved(h)`: `0xD8 ≤ h ∧ h ≤ 0xDF` (00_scope.md R9). -/
def reserved (h : Byte) : Bool := decide (resLo ≤ h) && decide (h ≤ resHi)

/-- What a read of `STATUS` returns: `RUN` in bit 0 and 0 elsewhere (10_state.md R26, R31, 42_control.md R173). -/
def statusWord (run : Bool) : Nat := run.toNat

end Sys2Proof.Machine
end

