-- ==== Sys2Proof/Syntax.lean ====
section
/-! DEFINITION. Syntax.lean: the step kinds and commands of spec/opcode_table.json, one constructor per mnemonic
(the five bands of `PK.DIR` and of `UP.DIR` are one step kind each, 30_encoding.md R87, R93). -/

namespace Sys2Proof

/-- The nine mnemonics of the opcode table, with the operands of the written form of 30_encoding.md R92. -/
inductive Instr where
  /-- `PK.DIR b0, b1` (40_packer.md R112). -/
  | pkDir (b0 b1 : Byte)
  /-- `PK.ESC b0, b1` (R113). -/
  | pkEsc (b0 b1 : Byte)
  /-- `PK.PAD b0`, the pseudo-step of the odd tail (R120). -/
  | pkPad (b0 : Byte)
  /-- `PK.HALT` (R114). -/
  | pkHalt
  /-- `PK.START` (42_control.md R171). -/
  | pkStart
  /-- `UP.DIR u` (41_unpacker.md R142). -/
  | upDir (u : CodeUnit)
  /-- `UP.HALF u` (R143). -/
  | upHalf (u : CodeUnit)
  /-- `UP.HALT` (R144). -/
  | upHalt
  /-- `UP.START` (42_control.md R172). -/
  | upStart
  deriving DecidableEq, Repr

/-- The engine a step kind or command belongs to (10_state.md R20). -/
def Instr.engine : Instr → Engine
  | .pkDir _ _ => .pk
  | .pkEsc _ _ => .pk
  | .pkPad _ => .pk
  | .pkHalt => .pk
  | .pkStart => .pk
  | .upDir _ => .up
  | .upHalf _ => .up
  | .upHalt => .up
  | .upStart => .up

end Sys2Proof
end

