-- ==== Sys2Proof/WellFormed.lean ====
section
/-! DEFINITION. WellFormed.lean: which operands a step kind may have (30_encoding.md R84, R85). -/

namespace Sys2Proof

open Sys2Proof.Machine

/-- A direct pair or unit has a second (high) byte that is not reserved, an escape or a half has one that is. -/
def Instr.wf : Instr → Bool
  | .pkDir _ b1 => !reserved b1
  | .pkEsc _ b1 => reserved b1
  | .pkPad _ => true
  | .pkHalt => true
  | .pkStart => true
  | .upDir u => !reserved (high u)
  | .upHalf u => reserved (high u)
  | .upHalt => true
  | .upStart => true

end Sys2Proof
end

