-- ==== Sys2Proof/Decode.lean ====
section
/-! DEFINITION. Decode.lean: what each engine decodes (30_encoding.md R80 to R93): the decoder, then the encoder, then
the table's numbering of the same words. -/

namespace Sys2Proof

open Sys2Proof.Machine

/-- What selects a step kind or a command (30_encoding.md R88, R93, column `format` of the opcode table). -/
inductive InstrWord where
  /-- Format `P`: the pair word of two input bytes (R81). -/
  | pair (p : CodeUnit)
  /-- Format `P` where the Packer stands at the odd tail: the pair word of the last byte widened by the pad to 16 bits
  (R80, R82, 20_memory.md R58). The position, not a bit, tells it from a pair (40_packer.md R120). -/
  | tail (p : CodeUnit)
  /-- Format `U`: the unit (R83). -/
  | unit (u : CodeUnit)
  /-- Format `SEQ`: `RUN = 1` and `POS = LEN` (R88). -/
  | atEnd (e : Engine)
  /-- Format `CMD`: the value a host writes to `CTRL` (R88). -/
  | ctrl (e : Engine) (v : Nat)
  deriving DecidableEq, Repr

/-- Why a word is no instruction. Words of formats `P` and `U` are never rejected (R89). -/
inductive Reject where
  /-- A value with bit 0 = 0 written to `CTRL` is not a command and changes nothing (10_state.md R27, R32). -/
  | notACommand
  deriving DecidableEq, Repr

/-- Packer dispatch: `reserved(b1)` selects `PK.ESC`, anything else `PK.DIR`; `b0` plays no part (R84). -/
def decodePair (p : CodeUnit) : Instr :=
  if reserved (high p) then .pkEsc (low p) (high p) else .pkDir (low p) (high p)

/-- The same dispatch at the odd tail: the pad is not reserved, so the step is `PK.DIR`, there written `PK.PAD`
(40_packer.md R120). A word whose second byte is not the pad, which R82 never forms there, keeps its other name. -/
def decodeTail (p : CodeUnit) : Instr :=
  if reserved (high p) then .pkEsc (low p) (high p)
  else if high p = padByte then .pkPad (low p)
  else .pkDir (low p) (high p)

/-- Unpacker dispatch: `reserved(high)` selects `UP.HALF`, anything else `UP.DIR` (R85). -/
def decodeUnit (u : CodeUnit) : Instr :=
  if reserved (high u) then .upHalf u else .upDir u

/-- The step an engine takes at the end of its input (R88). -/
def decodeAtEnd : Engine → Instr
  | .pk => .pkHalt
  | .up => .upHalt

/-- The command a write to `CTRL` is: any value with bit 0 = 1 is START (42_control.md R171, R172). -/
def decodeCtrl (e : Engine) (v : Nat) : Except Reject Instr :=
  if v % 2 = 1 then
    match e with
    | .pk => .ok .pkStart
    | .up => .ok .upStart
  else .error .notACommand

/-- The decoder. -/
def decode : InstrWord → Except Reject Instr
  | .pair p => .ok (decodePair p)
  | .tail p => .ok (decodeTail p)
  | .unit u => .ok (decodeUnit u)
  | .atEnd e => .ok (decodeAtEnd e)
  | .ctrl e v => decodeCtrl e v

/-- The encoder: the word that selects a well-formed instruction (R81, R83, R88). START is written as the value 1. -/
def encode : Instr → InstrWord
  | .pkDir b0 b1 => .pair (pairWord b0 b1)
  | .pkEsc b0 b1 => .pair (pairWord b0 b1)
  | .pkPad b0 => .tail (pairWord b0 padByte)
  | .pkHalt => .atEnd .pk
  | .pkStart => .ctrl .pk 1
  | .upDir u => .unit u
  | .upHalf u => .unit u
  | .upHalt => .atEnd .up
  | .upStart => .ctrl .up 1

/-- The word of the opcode table's numbering. DESIGN CHOICE (log 13): the table numbers the words of formats `P` and
`U` alike, so 9 to 16 bits are read as the Packer's pair word; up to 8 bits, with every bit above them 0, are the
pair word of an odd tail; above 16 bits, bits 16 and up name the format (0 is `P`, 1 is `U`). -/
def tableWord (nbits w : Nat) : Option InstrWord :=
  if nbits = 0 then none
  else if nbits ≤ 8 then some (.tail (BitVec.ofNat 16 (w % 256)))
  else if nbits ≤ 16 then some (.pair (BitVec.ofNat 16 w))
  else if w / 65536 = 0 then some (.pair (BitVec.ofNat 16 w))
  else if w / 65536 = 1 then some (.unit (BitVec.ofNat 16 w))
  else none

/-- The instruction the decoder reads from a word of the opcode table. -/
def decodeTableWord (nbits w : Nat) : Option Instr :=
  match tableWord nbits w with
  | none => none
  | some iw =>
    match decode iw with
    | .ok i => some i
    | .error _ => none

end Sys2Proof
end

