-- ==== Sys2Proof/Machine/State.lean ====
section
/-! DEFINITION. Machine/State.lean: the state of the block (10_state.md R20), the host's actions on it (42_control.md
R170), the reasons a step can stop, and the state after reset (R42). -/

namespace Sys2Proof.Machine

/-- A buffer space: a sparse array of elements of `w` bits, as (index, element) pairs. An index that is not listed
holds no value (10_state.md R43). `Memory 8` is `List Host.Cell`. -/
abbrev Memory (w : Nat) := List (Nat × BitVec w)

/-- The state of one engine (R20), with input elements of `wi` bits and output elements of `wo` bits. -/
structure EngineState (wi wo : Nat) where
  /-- `STATUS` bit 0, the only status bit (R26, R31). -/
  run : Bool
  /-- `LEN`: input length in elements (R22, R28). -/
  len : Nat
  /-- `POS`: index of the next input element, the engine's program counter (R23, R29). -/
  pos : Nat
  /-- `OLEN`: count of output elements written, index of the next (R25, R30). -/
  olen : Nat
  /-- `IBUF` (R38, 20_memory.md R51, R53). -/
  ibuf : Memory wi
  /-- `OBUF` (R38, 20_memory.md R52, R54). -/
  obuf : Memory wo
  deriving DecidableEq, Repr

/-- The five registers of an engine (R34). -/
inductive Reg where
  | ctrl
  | status
  | len
  | pos
  | olen
  deriving DecidableEq, Repr

/-- The two buffer spaces of an engine (R38). -/
inductive BufId where
  | ibuf
  | obuf
  deriving DecidableEq, Repr

/-- What the host can do to an engine (42_control.md R170), in the notation of 30_encoding.md R92. A write to `OBUF` is
listed because R175 says the host cannot make it: it is refused. -/
inductive HostAction where
  /-- `RD E.REG` (R173). -/
  | rdReg (e : Engine) (r : Reg)
  /-- `WR E.REG <- v` (R174). -/
  | wrReg (e : Engine) (r : Reg) (v : Nat)
  /-- `RD E.IBUF[i]`, `RD E.OBUF[i]` (R175). -/
  | rdBuf (e : Engine) (b : BufId) (i : Nat)
  /-- `WR E.IBUF[i] <- v` (R175). -/
  | wrBuf (e : Engine) (b : BufId) (i v : Nat)
  deriving DecidableEq, Repr

/-- What can happen next: an engine moves, the host acts, or the block is reset (R170, 70_reset_and_hazards.md R250). -/
inductive Event where
  | engine (e : Engine)
  | host (a : HostAction)
  | reset
  deriving DecidableEq, Repr

/-- The whole block. -/
structure State where
  /-- The parameters of the step relation (R41); nothing writes them. -/
  cfg : Config
  /-- The Packer. -/
  pk : EngineState 8 16
  /-- The Unpacker. -/
  up : EngineState 16 8
  /-- The MODEL's own field (log 1): the events to come, first one next. -/
  agenda : List Event
  /-- The MODEL's own field (log 16): the values returned to the host, newest first. -/
  reads : List Nat
  deriving DecidableEq, Repr

/-- The block raises no exception: the set of causes is empty (60_exceptions.md R220, R226). -/
inductive Fault where
  deriving DecidableEq, Repr

/-- What a step refuses (42_control.md R178, 93_implementation_defined.md W1 to W6). Every one is SAFE: the model stops
where a real block would do something the spec gives no meaning to. -/
inductive Refusal where
  /-- Raised by `exec` for an instruction without a meaning. Safe. No arm raises it. -/
  | notModelled (mnemonic : String)
  /-- Raised by START while `RUN = 1` (R177 a). Safe. -/
  | startWhileRunning (e : Engine)
  /-- Raised by START, and by a write to `LEN`, with a length above the capacity (R177 b, R174). Safe. -/
  | lenAboveCapacity (e : Engine)
  /-- Raised by START when an element of the input holds no value (R177 c). Safe. -/
  | inputNotWritten (e : Engine)
  /-- Raised by a write to `LEN` while `RUN = 1` (R174). Safe. -/
  | lenWriteWhileRunning (e : Engine)
  /-- Raised by a host read or write of a buffer while `RUN = 1` (R175). Safe. -/
  | bufferAccessWhileRunning (e : Engine)
  /-- Raised by a host access to an index at or above the capacity (R178). Safe. -/
  | indexAboveCapacity (e : Engine)
  /-- Raised by a host read of `OBUF[j]` with `j ≥ OLEN` (R175). Safe. -/
  | outputReadPastOlen (e : Engine)
  /-- Raised by a read of an element that holds no value (10_state.md R43). Safe. -/
  | elementHasNoValue (e : Engine)
  /-- Raised by a host write to `OBUF` (R175). Safe. -/
  | hostWriteToOutput (e : Engine)
  /-- Raised by a host write of a value wider than the element (R175). Safe. -/
  | valueTooWide (e : Engine)
  /-- Raised by the meaning of an engine step in a state whose dispatch (40_packer.md R115, 41_unpacker.md R145) does
  not select that step (log 9). Safe. -/
  | stepNotSelected (e : Engine)
  deriving DecidableEq, Repr

/-- An engine after reset: `RUN`, `LEN`, `POS`, `OLEN` 0, no element holds a value (R42). -/
def EngineState.reset {wi wo : Nat} : EngineState wi wo :=
  { run := false, len := 0, pos := 0, olen := 0, ibuf := [], obuf := [] }

/-- The block after reset (R42). The parameters, the empty agenda and the empty record are the model's choices
(logs 1, 4, 6, 7, 16). -/
def State.reset : State :=
  { cfg := Config.standard, pk := EngineState.reset, up := EngineState.reset, agenda := [], reads := [] }

end Sys2Proof.Machine
end

