-- ==== Sys2Proof/Machine/Memory.lean ====
section
/-! DEFINITION. Machine/Memory.lean: reading and writing one element of a buffer space (00_scope.md R11, 20_memory.md
R50, R60), the canonical form, and the sequence held at indices `0 .. n-1`. -/

namespace Sys2Proof.Machine

/-- The element at an index, `none` where it holds no value (10_state.md R43). A read has no side effect (R60). -/
def Memory.read {w : Nat} : Memory w → Nat → Option (BitVec w)
  | [], _ => none
  | (a, v) :: rest, i => if a = i then some v else Memory.read rest i

/-- `MemWrite` (R11): element `i` becomes `v`. Keeps the indices strictly rising. -/
def Memory.write {w : Nat} : Memory w → Nat → BitVec w → Memory w
  | [], i, v => [(i, v)]
  | (a, x) :: rest, i, v =>
    if i < a then (i, v) :: (a, x) :: rest
    else if i = a then (i, v) :: rest
    else (a, x) :: Memory.write rest i v

/-- The canonical form: indices strictly rising. Every listed element holds a value, so equal memories are equal
lists. -/
abbrev Memory.wf {w : Nat} (m : Memory w) : Prop := m.Pairwise (fun x y => x.1 < y.1)

/-- The sequence at indices `0 .. n-1`, if every one of them holds a value (00_scope.md R10). -/
def Memory.first {w : Nat} (m : Memory w) : Nat → Option (List (BitVec w))
  | 0 => some []
  | n + 1 =>
    match Memory.first m n, m.read n with
    | some l, some v => some (l ++ [v])
    | _, _ => none

/-- `v` is a legal length for a buffer of this capacity; `none` is no bound (00_scope.md R6). -/
def withinCap : Option Nat → Nat → Bool
  | none, _ => true
  | some c, v => decide (v ≤ c)

/-- `i` is an index of a buffer of this capacity (42_control.md R175). -/
def belowCap : Option Nat → Nat → Bool
  | none, _ => true
  | some c, i => decide (i < c)

/-- Every listed index is an index of a buffer of this capacity (20_memory.md R52, R54). -/
def Memory.below {w : Nat} (m : Memory w) (cap : Option Nat) : Bool := m.all (fun c => belowCap cap c.1)

/-- Capacity of `PK.OBUF` in units (20_memory.md R50). -/
def pkOutCap (c : Config) : Option Nat := c.pkCap

/-- Capacity of `UP.OBUF` in bytes: twice `UP_CAP` (R50). -/
def upOutCap (c : Config) : Option Nat := c.upCap.map (fun n => 2 * n)

end Sys2Proof.Machine
end

