-- ==== Sys2Proof/Machine/Ops.lean ====
section
/-! DEFINITION. Machine/Ops.lean: the shared operations over one engine's registers and buffers. There is no operation
that takes an exception and none that returns from one: the block has neither (60_exceptions.md R220, R224, R225). -/

namespace Sys2Proof.Machine

/-- `emit(v)` (00_scope.md R11): store `v` at index `OLEN` of the output and count it. -/
def EngineState.emit {wi wo : Nat} (k : EngineState wi wo) (v : BitVec wo) : EngineState wi wo :=
  { k with obuf := k.obuf.write k.olen v, olen := k.olen + 1 }

/-- `pc <- t` (R11). -/
def EngineState.jump {wi wo : Nat} (k : EngineState wi wo) (t : Nat) : EngineState wi wo :=
  { k with pos := t }

/-- HALT ends the operation: `RUN <- 0` and nothing else (40_packer.md R114, 41_unpacker.md R144). -/
def EngineState.halt {wi wo : Nat} (k : EngineState wi wo) : EngineState wi wo :=
  { k with run := false }

/-- START's effect: `POS <- 0`, `OLEN <- 0`, `RUN <- 1` (42_control.md R171, R172). -/
def EngineState.begin {wi wo : Nat} (k : EngineState wi wo) : EngineState wi wo :=
  { k with pos := 0, olen := 0, run := true }

/-- Precondition (c) of START: every element of the input holds a value (R177). -/
def EngineState.inputWritten {wi wo : Nat} (k : EngineState wi wo) : Bool := (k.ibuf.first k.len).isSome

/-- START on engine `e` whose input buffer has capacity `cap`: R171 and R172 under the preconditions of R177; a START
that fails one is refused (R178). -/
def EngineState.start {wi wo : Nat} (e : Engine) (cap : Option Nat) (k : EngineState wi wo) :
    Except Refusal (EngineState wi wo) :=
  if k.run then .error (.startWhileRunning e)
  else if withinCap cap k.len then
    if k.inputWritten then .ok k.begin else .error (.inputNotWritten e)
  else .error (.lenAboveCapacity e)

/-- `RD E.REG` (R173): `CTRL` reads 0, `STATUS` reads `RUN`, the counters read their value. -/
def EngineState.readReg {wi wo : Nat} (k : EngineState wi wo) : Reg → Nat
  | .ctrl => 0
  | .status => statusWord k.run
  | .len => k.len
  | .pos => k.pos
  | .olen => k.olen

/-- `WR E.LEN <- v` (R174): allowed while `RUN = 0`, for a legal `v`; `POS` stays, also above a smaller `v` (log 25). -/
def EngineState.writeLen {wi wo : Nat} (e : Engine) (cap : Option Nat) (k : EngineState wi wo) (v : Nat) :
    Except Refusal (EngineState wi wo) :=
  if k.run then .error (.lenWriteWhileRunning e)
  else if withinCap cap v then .ok { k with len := v }
  else .error (.lenAboveCapacity e)

/-- `RD E.IBUF[i]` (R175); an element nothing has written holds no value (10_state.md R43, log 8). -/
def EngineState.readInput {wi wo : Nat} (e : Engine) (cap : Option Nat) (k : EngineState wi wo) (i : Nat) :
    Except Refusal Nat :=
  if k.run then .error (.bufferAccessWhileRunning e)
  else if belowCap cap i then
    match k.ibuf.read i with
    | some v => .ok v.toNat
    | none => .error (.elementHasNoValue e)
  else .error (.indexAboveCapacity e)

/-- `RD E.OBUF[j]` (R175): a value only while `RUN = 0` and for `j < OLEN` (R43). -/
def EngineState.readOutput {wi wo : Nat} (e : Engine) (outCap : Option Nat) (k : EngineState wi wo) (j : Nat) :
    Except Refusal Nat :=
  if k.run then .error (.bufferAccessWhileRunning e)
  else if belowCap outCap j then
    if j < k.olen then
      match k.obuf.read j with
      | some v => .ok v.toNat
      | none => .error (.elementHasNoValue e)
    else .error (.outputReadPastOlen e)
  else .error (.indexAboveCapacity e)

/-- `WR E.IBUF[i] <- v` (R175): `i` below the capacity, `v` a value of the element's width, while `RUN = 0`. -/
def EngineState.writeInput {wi wo : Nat} (e : Engine) (cap : Option Nat) (k : EngineState wi wo) (i v : Nat) :
    Except Refusal (EngineState wi wo) :=
  if k.run then .error (.bufferAccessWhileRunning e)
  else if belowCap cap i then
    if v < 2 ^ wi then .ok { k with ibuf := k.ibuf.write i (BitVec.ofNat wi v) }
    else .error (.valueTooWide e)
  else .error (.indexAboveCapacity e)

/-- The state with another Packer. -/
def State.withPk (s : State) (k : EngineState 8 16) : State := { s with pk := k }

/-- The state with another Unpacker. -/
def State.withUp (s : State) (k : EngineState 16 8) : State := { s with up := k }

/-- The state with another list of events to come. -/
def State.withAgenda (s : State) (l : List Event) : State := { s with agenda := l }

/-- The host has received `v`: only the host's record changes (R173: a read has no side effect). -/
def State.returned (s : State) (v : Nat) : State := { s with reads := v :: s.reads }

/-- The reset event puts both engines in the state of 10_state.md R42 (70_reset_and_hazards.md R250); the parameters,
the events to come and the host's record are not the block's state (log 17). -/
def State.resetBlock (s : State) : State := (s.withPk EngineState.reset).withUp EngineState.reset

/-- Bring an operation on the Packer's state to a step's outcome. -/
def State.putPk (s : State) : Except Refusal (EngineState 8 16) → Host.Outcome State Fault Refusal
  | .ok k => .next (s.withPk k)
  | .error r => .refused r

/-- Bring an operation on the Unpacker's state to a step's outcome. -/
def State.putUp (s : State) : Except Refusal (EngineState 16 8) → Host.Outcome State Fault Refusal
  | .ok k => .next (s.withUp k)
  | .error r => .refused r

/-- Bring a host read to a step's outcome. -/
def State.putRead (s : State) : Except Refusal Nat → Host.Outcome State Fault Refusal
  | .ok v => .next (s.returned v)
  | .error r => .refused r

end Sys2Proof.Machine
end

