-- ==== Sys2Proof/Machine/Command.lean ====
section
/-! DEFINITION. Machine/Command.lean: the two commands (42_control.md R171, R172). -/

namespace Sys2Proof.Machine

/-- `PK.START` (R171), under the preconditions of R177. -/
def execPkStart (s : State) : Host.Outcome State Fault Refusal := s.putPk (s.pk.start .pk s.cfg.pkCap)

/-- `UP.START` (R172), under the preconditions of R177. -/
def execUpStart (s : State) : Host.Outcome State Fault Refusal := s.putUp (s.up.start .up s.cfg.upCap)

end Sys2Proof.Machine
end

