-- ==== Sys2Proof/Machine/Operands.lean ====
section
/-! DEFINITION. Machine/Operands.lean: the operands of an engine step, read from the input at `POS` (30_encoding.md
R82, R83, 40_packer.md R111, 41_unpacker.md R141). -/

namespace Sys2Proof.Machine

/-- The pair at `PK.POS`: `b1` is the pad where the pair has only one byte in the buffer, and then no second read is
made (R82, R111, 20_memory.md R58). `none` where `POS` is not below `LEN` or a byte holds no value. -/
def fetchPair (k : EngineState 8 16) : Option (Byte × Byte) :=
  if k.pos < k.len then
    match k.ibuf.read k.pos with
    | none => none
    | some b0 =>
      if k.pos + 1 < k.len then
        match k.ibuf.read (k.pos + 1) with
        | none => none
        | some b1 => some (b0, b1)
      else some (b0, padByte)
  else none

/-- `PK.POS` is at the odd tail: `LEN` is odd and `POS = LEN − 1` (40_packer.md R120). -/
def atOddTail (k : EngineState 8 16) : Bool := decide (k.len % 2 = 1) && decide (k.pos + 1 = k.len)

/-- The unit at `UP.POS` (R83, R141). -/
def fetchUnit (k : EngineState 16 8) : Option CodeUnit :=
  if k.pos < k.len then k.ibuf.read k.pos else none

end Sys2Proof.Machine
end

