-- ==== Sys2Proof/Machine/Packer.lean ====
section
/-! DEFINITION. Machine/Packer.lean: the Packer's steps (40_packer.md R112 to R114, R120). The meaning of a step is
guarded by the condition under which R115 selects it; elsewhere the spec gives the engine no such step (log 9). -/

namespace Sys2Proof.Machine

/-- `PK.DIR b0, b1` (R112): one unit, `pc <- min(POS + 2, LEN)`. -/
def execPkDir (b0 b1 : Byte) (s : State) : Host.Outcome State Fault Refusal :=
  if s.pk.run = true ∧ fetchPair s.pk = some (b0, b1) ∧ reserved b1 = false then
    .next (s.withPk ((s.pk.emit (pairWord b0 b1)).jump (min (s.pk.pos + 2) s.pk.len)))
  else .refused (.stepNotSelected .pk)

/-- `PK.ESC b0, b1` (R113): two units, `0xD800 + b0` before `0xDC00 + b1`, `pc <- POS + 2`. -/
def execPkEsc (b0 b1 : Byte) (s : State) : Host.Outcome State Fault Refusal :=
  if s.pk.run = true ∧ fetchPair s.pk = some (b0, b1) ∧ reserved b1 = true then
    .next (s.withPk (((s.pk.emit (escHi b0)).emit (escLo b1)).jump (s.pk.pos + 2)))
  else .refused (.stepNotSelected .pk)

/-- `PK.PAD b0` (R120): the odd tail; one unit, `b0` zero-extended, `pc <- LEN`. -/
def execPkPad (b0 : Byte) (s : State) : Host.Outcome State Fault Refusal :=
  if s.pk.run = true ∧ atOddTail s.pk = true ∧ s.pk.ibuf.read s.pk.pos = some b0 then
    .next (s.withPk ((s.pk.emit (padUnit b0)).jump s.pk.len))
  else .refused (.stepNotSelected .pk)

/-- `PK.HALT` (R114): `RUN <- 0`. -/
def execPkHalt (s : State) : Host.Outcome State Fault Refusal :=
  if s.pk.run = true ∧ s.pk.pos = s.pk.len then .next (s.withPk s.pk.halt)
  else .refused (.stepNotSelected .pk)

end Sys2Proof.Machine
end

