-- ==== Sys2Proof/Machine/Unpacker.lean ====
section
/-! DEFINITION. Machine/Unpacker.lean: the Unpacker's steps (41_unpacker.md R142 to R144). The meaning of a step is
guarded by the condition under which R145 selects it (log 9). No pairing state exists (10_state.md R33). -/

namespace Sys2Proof.Machine

/-- The two bytes of a direct unit in the order `DIRECT_ORDER` gives (R142). -/
def directBytes (o : DirectOrder) (u : CodeUnit) : Byte × Byte :=
  match o with
  | .lowFirst => (low u, high u)
  | .highFirst => (high u, low u)

/-- `UP.DIR u` (R142): two bytes, `pc <- POS + 1`. -/
def execUpDir (u : CodeUnit) (s : State) : Host.Outcome State Fault Refusal :=
  if s.up.run = true ∧ fetchUnit s.up = some u ∧ reserved (high u) = false then
    .next (s.withUp (((s.up.emit (directBytes s.cfg.directOrder u).1).emit (directBytes s.cfg.directOrder u).2).jump
      (s.up.pos + 1)))
  else .refused (.stepNotSelected .up)

/-- `UP.HALF u` (R143): the low byte, `pc <- POS + 1`; neighbouring units and `DIRECT_ORDER` play no part. -/
def execUpHalf (u : CodeUnit) (s : State) : Host.Outcome State Fault Refusal :=
  if s.up.run = true ∧ fetchUnit s.up = some u ∧ reserved (high u) = true then
    .next (s.withUp ((s.up.emit (low u)).jump (s.up.pos + 1)))
  else .refused (.stepNotSelected .up)

/-- `UP.HALT` (R144): `RUN <- 0`. -/
def execUpHalt (s : State) : Host.Outcome State Fault Refusal :=
  if s.up.run = true ∧ s.up.pos = s.up.len then .next (s.withUp s.up.halt)
  else .refused (.stepNotSelected .up)

end Sys2Proof.Machine
end

