-- ==== Sys2Proof/Machine/Dispatch.lean ====
section
/-! DEFINITION. Machine/Dispatch.lean: one arm per step kind and command of the opcode table. -/

namespace Sys2Proof.Machine

/-- The meaning of an instruction in a state. -/
def exec (i : Instr) (s : State) : Host.Outcome State Fault Refusal :=
  match i with
  | .pkDir b0 b1 => Sys2Proof.Machine.execPkDir b0 b1 s
  | .pkEsc b0 b1 => Sys2Proof.Machine.execPkEsc b0 b1 s
  | .pkPad b0 => Sys2Proof.Machine.execPkPad b0 s
  | .pkHalt => Sys2Proof.Machine.execPkHalt s
  | .pkStart => Sys2Proof.Machine.execPkStart s
  | .upDir u => Sys2Proof.Machine.execUpDir u s
  | .upHalf u => Sys2Proof.Machine.execUpHalf u s
  | .upHalt => Sys2Proof.Machine.execUpHalt s
  | .upStart => Sys2Proof.Machine.execUpStart s

end Sys2Proof.Machine
end

