-- ==== Sys2Proof/Machine/Engine.lean ====
section
/-! DEFINITION. Machine/Engine.lean: what an engine decodes next, and its move (40_packer.md R115, 41_unpacker.md
R145). -/

namespace Sys2Proof.Machine

/-- What the Packer decodes next while `RUN = 1` (R115): the end of the input or a pair word, that of
the odd tail completed by the pad (30_encoding.md R80, R82). Where
`POS` is above `LEN`, which no run reaches, no rule selects a step (log 12). -/
def fetchPk (k : EngineState 8 16) : Except Refusal InstrWord :=
  if k.pos = k.len then .ok (.atEnd .pk)
  else if k.len < k.pos then .error (.stepNotSelected .pk)
  else
    match fetchPair k with
    | none => .error (.elementHasNoValue .pk)
    | some (b0, b1) => if atOddTail k then .ok (.tail (pairWord b0 b1)) else .ok (.pair (pairWord b0 b1))

/-- What the Unpacker decodes next while `RUN = 1` (R145). -/
def fetchUp (k : EngineState 16 8) : Except Refusal InstrWord :=
  if k.pos = k.len then .ok (.atEnd .up)
  else if k.len < k.pos then .error (.stepNotSelected .up)
  else
    match fetchUnit k with
    | none => .error (.elementHasNoValue .up)
    | some u => .ok (.unit u)

/-- What engine `e` decodes next. -/
def fetch (e : Engine) (s : State) : Except Refusal InstrWord :=
  match e with
  | .pk => fetchPk s.pk
  | .up => fetchUp s.up

/-- `E.STATUS.RUN` (10_state.md R26, R31). -/
def State.running (s : State) : Engine → Bool
  | .pk => s.pk.run
  | .up => s.up.run

/-- Decode a word and run what it selects. A value that is no command changes nothing (10_state.md R27, R32). -/
def runWord (s : State) (iw : InstrWord) : Host.Outcome State Fault Refusal :=
  match decode iw with
  | .ok i => exec i s
  | .error .notACommand => .next s

/-- The move of engine `e`: with `RUN = 1` exactly one step is enabled (R115, R145); with `RUN = 0` the engine has no
step and keeps all its state (60_exceptions.md R226, R229, log 3). -/
def engineStep (e : Engine) (s : State) : Host.Outcome State Fault Refusal :=
  if s.running e then
    match fetch e s with
    | .ok iw => runWord s iw
    | .error r => .refused r
  else .next s

end Sys2Proof.Machine
end

