-- ==== Sys2Proof/Machine/HostPort.lean ====
section
/-! DEFINITION. Machine/HostPort.lean: the host's accesses (42_control.md R170 to R175, R178), reset, and the loading
of one input word. -/

namespace Sys2Proof.Machine

/-- `RD E.REG` (R173). -/
def State.readReg (s : State) (e : Engine) (r : Reg) : Nat :=
  match e with
  | .pk => s.pk.readReg r
  | .up => s.up.readReg r

/-- `WR E.REG <- v` (R174): `CTRL` is the command port, `LEN` is written, writes to `STATUS`, `POS` and `OLEN` are
ignored (10_state.md R34). -/
def hostWriteReg (e : Engine) (r : Reg) (v : Nat) (s : State) : Host.Outcome State Fault Refusal :=
  match r with
  | .ctrl => runWord s (.ctrl e v)
  | .len =>
    match e with
    | .pk => s.putPk (s.pk.writeLen .pk s.cfg.pkCap v)
    | .up => s.putUp (s.up.writeLen .up s.cfg.upCap v)
  | .status => .next s
  | .pos => .next s
  | .olen => .next s

/-- `RD E.IBUF[i]`, `RD E.OBUF[i]` (R175). -/
def hostReadBuf (e : Engine) (b : BufId) (i : Nat) (s : State) : Host.Outcome State Fault Refusal :=
  match e, b with
  | .pk, .ibuf => s.putRead (s.pk.readInput .pk s.cfg.pkCap i)
  | .pk, .obuf => s.putRead (s.pk.readOutput .pk (pkOutCap s.cfg) i)
  | .up, .ibuf => s.putRead (s.up.readInput .up s.cfg.upCap i)
  | .up, .obuf => s.putRead (s.up.readOutput .up (upOutCap s.cfg) i)

/-- `WR E.IBUF[i] <- v` (R175); the host cannot write `OBUF`. -/
def hostWriteBuf (e : Engine) (b : BufId) (i v : Nat) (s : State) : Host.Outcome State Fault Refusal :=
  match e, b with
  | .pk, .ibuf => s.putPk (s.pk.writeInput .pk s.cfg.pkCap i v)
  | .up, .ibuf => s.putUp (s.up.writeInput .up s.cfg.upCap i v)
  | .pk, .obuf => .refused (.hostWriteToOutput .pk)
  | .up, .obuf => .refused (.hostWriteToOutput .up)

/-- One action of the host (R170). -/
def hostAct (a : HostAction) (s : State) : Host.Outcome State Fault Refusal :=
  match a with
  | .rdReg e r => .next (s.returned (s.readReg e r))
  | .wrReg e r v => hostWriteReg e r v s
  | .rdBuf e b i => hostReadBuf e b i s
  | .wrBuf e b i v => hostWriteBuf e b i v s

/-- What an event does. -/
def runEvent (ev : Event) (s : State) : Host.Outcome State Fault Refusal :=
  match ev with
  | .engine e => engineStep e s
  | .host a => hostAct a s
  | .reset => .next s.resetBlock

/-- With no event left the host is silent and the running engines go on, the Packer first (70_reset_and_hazards.md
R261, log 2); their order is not observable (20_memory.md R70). -/
def runSilent (s : State) : Host.Outcome State Fault Refusal :=
  if s.pk.run then engineStep .pk s else engineStep .up s

/-- The Packer's input loaded with these bytes and its operation begun, as the host's writes and START do
(70_reset_and_hazards.md R253, log 14). -/
def State.loadPacker (s : State) (writes : Memory 8 → Memory 8) (n : Nat) : State :=
  (s.withPk { s.pk with run := true, len := n, pos := 0, olen := 0, ibuf := writes s.pk.ibuf }).withAgenda []

/-- The Unpacker's input loaded with one unit and its operation begun; the Packer is put at rest, so that the
Unpacker moves next. -/
def State.loadUnpacker (s : State) (u : CodeUnit) : State :=
  ((s.withPk s.pk.halt).withUp
    { s.up with run := true, len := 1, pos := 0, olen := 0, ibuf := s.up.ibuf.write 0 u }).withAgenda []

/-- Place a word where the next step fetches it (log 14). -/
def State.loadWord (s : State) : InstrWord → State
  | .pair p => s.loadPacker (fun m => (m.write 0 (low p)).write 1 (high p)) 2
  | .tail p => s.loadPacker (fun m => m.write 0 (low p)) 1
  | .unit u => s.loadUnpacker u
  | .atEnd .pk => (s.withPk { s.pk with run := true, pos := s.pk.len }).withAgenda []
  | .atEnd .up => ((s.withPk s.pk.halt).withUp { s.up with run := true, pos := s.up.len }).withAgenda []
  | .ctrl e v => s.withAgenda [.host (.wrReg e .ctrl v)]

end Sys2Proof.Machine
end

