-- ==== Sys2Proof/Machine/Step.lean ====
section
/-! DEFINITION. Machine/Step.lean: one step of the block: the next event of the agenda, or, with none left, the move of
a running engine (42_control.md R170, 60_exceptions.md R223). -/

namespace Sys2Proof.Machine

/-- One step. -/
def step (s : State) : Host.Outcome State Fault Refusal :=
  match s.agenda with
  | [] => runSilent s
  | ev :: rest => runEvent ev (s.withAgenda rest)

/-- `s` with a word of the opcode table placed where `step` fetches it next (logs 13, 14). -/
def State.withFetchWord (s : State) (nbits w : Nat) : State :=
  match tableWord nbits w with
  | none => s
  | some iw => s.loadWord iw

end Sys2Proof.Machine
end

