-- ==== Sys2Proof/Machine/Codec.lean ====
section
/-! DEFINITION. Machine/Codec.lean: the two functions D00 defines, apart from the engines that evaluate them
(40_packer.md R110, 41_unpacker.md R140), and the notions of 43_codec_laws.md. -/

namespace Sys2Proof.Machine

/-- `packPair(b0, b1)` (R110). -/
def packPair (b0 b1 : Byte) : List CodeUnit :=
  if reserved b1 then [escHi b0, escLo b1] else [pairWord b0 b1]

/-- `pack(buf)` (R110): pairs in increasing order, the last byte of an odd-length buffer paired with the pad. -/
def pack : List Byte → List CodeUnit
  | [] => []
  | [b0] => packPair b0 padByte
  | b0 :: b1 :: rest => packPair b0 b1 ++ pack rest

/-- `unpackUnit(u)` (R140). -/
def unpackUnit (o : DirectOrder) (u : CodeUnit) : List Byte :=
  if reserved (high u) then [low u]
  else
    match o with
    | .lowFirst => [low u, high u]
    | .highFirst => [high u, low u]

/-- `unpack(s)` (R140). -/
def unpack (o : DirectOrder) : List CodeUnit → List Byte
  | [] => []
  | u :: rest => unpackUnit o u ++ unpack o rest

/-- `pad(buf)`: `buf` itself, or `buf ++ [0x00]` where its length is odd (43_codec_laws.md, notation). -/
def pad (buf : List Byte) : List Byte := if buf.length % 2 = 1 then buf ++ [padByte] else buf

/-- The pairs of a buffer in order, the last one of an odd-length buffer completed by the pad (R110). -/
def pairs : List Byte → List (Byte × Byte)
  | [] => []
  | [b0] => [(b0, padByte)]
  | b0 :: b1 :: rest => (b0, b1) :: pairs rest

/-- `E(buf)`: the number of pairs whose second byte is reserved (43_codec_laws.md, notation). -/
def escapes : List Byte → Nat
  | [] => 0
  | [_] => 0
  | _ :: b1 :: rest => (if reserved b1 then 1 else 0) + escapes rest

/-- `H(s)`: the number of reserved units (43_codec_laws.md, notation). -/
def halves (s : List CodeUnit) : Nat := s.countP (fun u => reserved (high u))

/-- A block of a canonical sequence (R198): one direct unit, or `(0xD800 + x, 0xDC00 + y)` with `y` reserved. -/
inductive Block where
  | direct (u : CodeUnit)
  | escape (x y : Byte)
  deriving DecidableEq, Repr

/-- A block is one of R198's: the direct unit's high byte is not reserved, the escape's second byte is. -/
def Block.legal : Block → Bool
  | .direct u => !reserved (high u)
  | .escape _ y => reserved y

/-- The units of a block (R198). -/
def Block.units : Block → List CodeUnit
  | .direct u => [u]
  | .escape x y => [escHi x, escLo y]

/-- A canonical sequence: a concatenation of legal blocks (R198). -/
def Canonical (s : List CodeUnit) : Prop :=
  ∃ blocks : List Block, (∀ b ∈ blocks, b.legal = true) ∧ s = blocks.flatMap Block.units

/-- The code point of a surrogate pair: `0x10000 + ((h − 0xD800) << 10) + (l − 0xDC00)` (R203, from general
knowledge, log 24). No rule of the block uses it. -/
def codePoint (h l : CodeUnit) : Nat := 0x10000 + (h.toNat - 0xD800) * 1024 + (l.toNat - 0xDC00)

/-- The two bytes of a unit as a host stores them (20_memory.md R56, log 7). Used by no step. -/
def serialUnit (o : UnitSerial) (u : CodeUnit) : List Byte :=
  match o with
  | .le => [low u, high u]
  | .be => [high u, low u]

/-- A unit sequence as a host stores it in byte-addressed storage (R56, log 7). Used by no step. -/
def serial (o : UnitSerial) (s : List CodeUnit) : List Byte := s.flatMap (serialUnit o)

end Sys2Proof.Machine
end

