-- ==== Sys2Proof/Safety.lean ====
section
/-! DEFINITION. Safety.lean: what holds of the block between its steps, in the terms the statements use. -/

namespace Sys2Proof.Machine

/-- The Packer between steps. The counter bounds of 10_state.md R35 and R37 and the run invariant of 40_packer.md
R118, which speak of a run, are stated while `RUN = 1`: a host may write `LEN` and `IBUF` at rest (log 15). -/
structure PackerInv (cfg : Config) (k : EngineState 8 16) : Prop where
  ibuf_wf : k.ibuf.wf
  obuf_wf : k.obuf.wf
  ibuf_below : k.ibuf.below cfg.pkCap = true
  obuf_below : k.obuf.below (pkOutCap cfg) = true
  len_legal : withinCap cfg.pkCap k.len = true
  pos_legal : withinCap cfg.pkCap k.pos = true
  olen_lower : (k.pos + 1) / 2 ≤ k.olen
  olen_upper : k.olen ≤ k.pos
  output_written : (k.obuf.first k.olen).isSome = true
  pos_le_len : k.run = true → k.pos ≤ k.len
  pos_even : k.run = true → k.pos % 2 = 0 ∨ k.pos = k.len
  input_written : k.run = true → (k.ibuf.first k.len).isSome = true
  output_packs : k.run = true →
    k.obuf.first k.olen = (k.ibuf.first k.len).map (fun buf => pack (buf.take k.pos))

/-- The Unpacker between steps (10_state.md R36, R37, 41_unpacker.md R148; log 15). -/
structure UnpackerInv (cfg : Config) (k : EngineState 16 8) : Prop where
  ibuf_wf : k.ibuf.wf
  obuf_wf : k.obuf.wf
  ibuf_below : k.ibuf.below cfg.upCap = true
  obuf_below : k.obuf.below (upOutCap cfg) = true
  len_legal : withinCap cfg.upCap k.len = true
  pos_legal : withinCap cfg.upCap k.pos = true
  olen_lower : k.pos ≤ k.olen
  olen_upper : k.olen ≤ 2 * k.pos
  output_written : (k.obuf.first k.olen).isSome = true
  pos_le_len : k.run = true → k.pos ≤ k.len
  input_written : k.run = true → (k.ibuf.first k.len).isSome = true
  output_unpacks : k.run = true →
    k.obuf.first k.olen = (k.ibuf.first k.len).map (fun s => unpack cfg.directOrder (s.take k.pos))

/-- The block between steps. -/
structure BlockInv (s : State) : Prop where
  pk : PackerInv s.cfg s.pk
  up : UnpackerInv s.cfg s.up

/-- The Packer's position invariant (10_state.md R35; after a host write to `LEN` at rest see log 25). -/
def PackerPosition (k : EngineState 8 16) : Prop := k.pos ≤ k.len ∧ (k.pos % 2 = 0 ∨ k.pos = k.len)

/-- The Unpacker's position invariant (10_state.md R36; log 25). -/
def UnpackerPosition (k : EngineState 16 8) : Prop := k.pos ≤ k.len

/-- The event is a host write to `LEN` of engine `e` (42_control.md R174). -/
def Event.isLenWrite (e : Engine) : Event → Bool
  | .host (.wrReg e' .len _) => decide (e' = e)
  | _ => false

/-- The event is a START of engine `e`: a write to `CTRL` with bit 0 = 1 (42_control.md R171,
R172). -/
def Event.isStart (e : Engine) : Event → Bool
  | .host (.wrReg e' .ctrl v) => decide (e' = e) && decide (v % 2 = 1)
  | _ => false

/-- Everything but the Packer is the same in both states. -/
def SameButPk (s t : State) : Prop := t.cfg = s.cfg ∧ t.up = s.up ∧ t.agenda = s.agenda ∧ t.reads = s.reads

/-- Everything but the Unpacker is the same in both states. -/
def SameButUp (s t : State) : Prop := t.cfg = s.cfg ∧ t.pk = s.pk ∧ t.agenda = s.agenda ∧ t.reads = s.reads

/-- An engine's input, every element of it and its length, is the same in both states. -/
def SameInput {wi wo : Nat} (k k' : EngineState wi wo) : Prop :=
  k'.len = k.len ∧ ∀ i, k'.ibuf.read i = k.ibuf.read i

/-- Every element of an engine's output is the same in both states, but for the elements whose indices are listed. -/
def SameOutputBut {wi wo : Nat} (written : List Nat) (k k' : EngineState wi wo) : Prop :=
  ∀ j, j ∉ written → k'.obuf.read j = k.obuf.read j

/-- The preconditions of START (42_control.md R177), on an engine whose input buffer has capacity `cap`. -/
def StartLegal {wi wo : Nat} (cap : Option Nat) (k : EngineState wi wo) : Prop :=
  k.run = false ∧ (∀ c, cap = some c → k.len ≤ c) ∧ ∀ i, i < k.len → ∃ v, k.ibuf.read i = some v

/-- `RD E.IBUF[i]` or `RD E.OBUF[i]` outside the conditions of 42_control.md R175 and 10_state.md R43. -/
def ReadBreach {wi wo : Nat} (cap outCap : Option Nat) (k : EngineState wi wo) : BufId → Nat → Prop
  | .ibuf, i => k.run = true ∨ (∃ c, cap = some c ∧ c ≤ i) ∨ k.ibuf.read i = none
  | .obuf, j => k.run = true ∨ (∃ c, outCap = some c ∧ c ≤ j) ∨ k.olen ≤ j

/-- `WR E.IBUF[i] <- v` outside the conditions of R175; no write to `OBUF` is inside them. -/
def WriteBreach {wi wo : Nat} (cap : Option Nat) (k : EngineState wi wo) : BufId → Nat → Nat → Prop
  | .ibuf, i, v => k.run = true ∨ (∃ c, cap = some c ∧ c ≤ i) ∨ 2 ^ wi ≤ v
  | .obuf, _, _ => True

/-- `WR E.REG <- v` that R174 and R177 do not allow: a START whose preconditions fail, a write to `LEN` while running
or above the capacity. -/
def RegBreach {wi wo : Nat} (cap : Option Nat) (k : EngineState wi wo) : Reg → Nat → Prop
  | .ctrl, v => v % 2 = 1 ∧ ¬ StartLegal cap k
  | .len, v => k.run = true ∨ ∃ c, cap = some c ∧ c < v
  | .status, _ => False
  | .pos, _ => False
  | .olen, _ => False

/-- A host action that breaks the protocol (R178). -/
def Breach (s : State) : HostAction → Prop
  | .rdReg _ _ => False
  | .wrReg .pk r v => RegBreach s.cfg.pkCap s.pk r v
  | .wrReg .up r v => RegBreach s.cfg.upCap s.up r v
  | .rdBuf .pk b i => ReadBreach s.cfg.pkCap (pkOutCap s.cfg) s.pk b i
  | .rdBuf .up b i => ReadBreach s.cfg.upCap (upOutCap s.cfg) s.up b i
  | .wrBuf .pk b i v => WriteBreach s.cfg.pkCap s.pk b i v
  | .wrBuf .up b i v => WriteBreach s.cfg.upCap s.up b i v

end Sys2Proof.Machine
end

