-- ==== Sys2Proof/Certificates/Slice0/Obligations.lean ====
section
/-! DEFINITION. Certificates/Slice0/Obligations.lean: the statements for the provers. -/

open Sys2Proof Sys2Proof.Machine

/-! ## Reset and the invariant -/

/-- R250 with the values of R42: the reset event puts both engines at rest with all counters 0 and no element holding a
value. That the parameters, the events to come and the host's record stay is the model's choice (log 17). -/
def Obligations.ResetPutsBothEnginesAtRest : Prop :=
  ∀ s rest, s.agenda = .reset :: rest →
    ∃ t, step s = .next t ∧
      (t.pk.run = false ∧ t.pk.len = 0 ∧ t.pk.pos = 0 ∧ t.pk.olen = 0) ∧
      (t.up.run = false ∧ t.up.len = 0 ∧ t.up.pos = 0 ∧ t.up.olen = 0) ∧
      (∀ i, t.pk.ibuf.read i = none ∧ t.pk.obuf.read i = none ∧ t.up.ibuf.read i = none ∧ t.up.obuf.read i = none) ∧
      t.cfg = s.cfg ∧ t.agenda = rest ∧ t.reads = s.reads

/-- The invariant holds right after reset (R42, R251), and any parameters and events may stand beside it. -/
def Obligations.ResetStateMeetsInvariant : Prop :=
  ∀ cfg agenda reads, BlockInv { State.reset with cfg := cfg, agenda := agenda, reads := reads }

/-- Every step keeps the invariant: canonical memories inside their capacities, legal lengths, the counter bounds of
R35, R36, R37, and the run invariants of R118 and R148. The bounds of a run are stated while `RUN = 1` (log 15). -/
def Obligations.StepKeepsInvariant : Prop :=
  ∀ s t, BlockInv s → step s = .next t → BlockInv t

/-- R35 and R36: the position invariants hold at reset, every step but a host write to that engine's `LEN` keeps them, and
every START restores them. R174 lets the host write `LEN` at rest and says that nothing else changes, so after such a write
they hold exactly when the position left behind fits the new length; that they fail otherwise is read from R174 (log 25). -/
def Obligations.PositionInvariantsHoldUntilLenIsRewritten : Prop :=
  (PackerPosition State.reset.pk ∧ UnpackerPosition State.reset.up) ∧
  ∀ s t, step s = .next t →
    ((∀ ev rest, s.agenda = ev :: rest → ev.isLenWrite .pk = false) → PackerPosition s.pk → PackerPosition t.pk) ∧
    ((∀ ev rest, s.agenda = ev :: rest → ev.isLenWrite .up = false) → UnpackerPosition s.up → UnpackerPosition t.up) ∧
    (∀ ev rest, s.agenda = ev :: rest → ev.isStart .pk = true → PackerPosition t.pk) ∧
    (∀ ev rest, s.agenda = ev :: rest → ev.isStart .up = true → UnpackerPosition t.up) ∧
    (∀ v rest, s.agenda = .host (.wrReg .pk .len v) :: rest →
      (PackerPosition t.pk ↔ s.pk.pos ≤ v ∧ (s.pk.pos % 2 = 0 ∨ s.pk.pos = v))) ∧
    (∀ v rest, s.agenda = .host (.wrReg .up .len v) :: rest → (UnpackerPosition t.up ↔ s.up.pos ≤ v))

/-- R23, R25, R29, R30: no counter outgrows `LENW` bits, under R6's constraint on the capacities. -/
def Obligations.CountersFitLenwBits : Prop :=
  ∀ s t w, BlockInv s → s.cfg.Legal → s.cfg.lenw = some w → step s = .next t →
    t.pk.len < 2 ^ w ∧ t.pk.pos < 2 ^ w ∧ t.pk.olen < 2 ^ w ∧ t.up.len < 2 ^ w ∧ t.up.pos < 2 ^ w ∧ t.up.olen < 2 ^ w

/-! ## Fields, predicate, operands -/

/-- R7: the two fields of a unit. -/
def Obligations.UnitFieldsAreByteSlices : Prop :=
  ∀ u : CodeUnit, (low u).toNat = (u &&& 0xFF#16).toNat ∧ (high u).toNat = ((u >>> 8) &&& 0xFF#16).toNat ∧
    u.toNat = (high u).toNat * 256 + (low u).toNat

/-- R9: the predicate `reserved`, its top-five-bits form, and the surrogate range. -/
def Obligations.ReservedIsTheSurrogateRange : Prop :=
  (∀ h : Byte, (reserved h = true ↔ 0xD8 ≤ h.toNat ∧ h.toNat ≤ 0xDF) ∧ (reserved h = true ↔ h.toNat / 8 = 0b11011)) ∧
  (∀ u : CodeUnit, (reserved (high u) = true ↔ 0xD800 ≤ u.toNat ∧ u.toNat ≤ 0xDFFF) ∧
    (reserved (high u) = true ↔ u &&& 0xF800#16 = 0xD800#16))

/-- R111, R82 and R58: the pair at `POS` is the two bytes at `POS` and `POS + 1`; where `POS + 1 = LEN` the second is
the pad whatever `IBUF[LEN]` holds. R141: the unit at `POS` is the element at `POS` and nothing else is read. -/
def Obligations.OperandsAreTheInputAtPos : Prop :=
  (∀ (k : EngineState 8 16) b0 b1, k.pos + 1 < k.len → k.ibuf.read k.pos = some b0 →
    k.ibuf.read (k.pos + 1) = some b1 → fetchPair k = some (b0, b1)) ∧
  (∀ (k : EngineState 8 16) b0, k.pos + 1 = k.len → k.ibuf.read k.pos = some b0 → fetchPair k = some (b0, 0x00#8)) ∧
  (∀ (k : EngineState 16 8) u, k.pos < k.len → k.ibuf.read k.pos = some u → fetchUnit k = some u)

/-! ## The steps of the Packer: result, frame and completion -/

/-- R112: the pair word `b1×256 + b0` decodes to the step and is the unit it emits, never in the surrogate range. -/
def Obligations.PkDirPacksPairIntoOneUnit : Prop :=
  ∀ s b0 b1, s.pk.run = true → fetchPair s.pk = some (b0, b1) → reserved b1 = false →
    ∃ t u, exec (.pkDir b0 b1) s = .next t ∧
      u.toNat = b1.toNat * 256 + b0.toNat ∧ decode (.pair u) = .ok (.pkDir b0 b1) ∧
      ¬ (0xD800 ≤ u.toNat ∧ u.toNat ≤ 0xDFFF) ∧
      t.pk.obuf.read s.pk.olen = some u ∧ SameOutputBut [s.pk.olen] s.pk t.pk ∧
      t.pk.olen = s.pk.olen + 1 ∧ t.pk.pos = min (s.pk.pos + 2) s.pk.len ∧
      t.pk.run = true ∧ SameInput s.pk t.pk ∧ SameButPk s t

/-- R113: the pair word `b1×256 + b0` decodes to the step, which emits `0xD800 + b0` and then `0xDC00 + b1`. -/
def Obligations.PkEscPacksPairIntoTwoUnits : Prop :=
  ∀ s b0 b1, s.pk.run = true → fetchPair s.pk = some (b0, b1) → reserved b1 = true →
    ∃ t p u0 u1, exec (.pkEsc b0 b1) s = .next t ∧
      p.toNat = b1.toNat * 256 + b0.toNat ∧ decode (.pair p) = .ok (.pkEsc b0 b1) ∧
      u0.toNat = 0xD800 + b0.toNat ∧ u1.toNat = 0xDC00 + b1.toNat ∧
      u0.toNat ≤ 0xD8FF ∧ 0xDCD8 ≤ u1.toNat ∧ u1.toNat ≤ 0xDCDF ∧
      t.pk.obuf.read s.pk.olen = some u0 ∧ t.pk.obuf.read (s.pk.olen + 1) = some u1 ∧
      SameOutputBut [s.pk.olen, s.pk.olen + 1] s.pk t.pk ∧
      t.pk.olen = s.pk.olen + 2 ∧ t.pk.pos = s.pk.pos + 2 ∧ s.pk.pos + 2 ≤ s.pk.len ∧
      t.pk.run = true ∧ SameInput s.pk t.pk ∧ SameButPk s t

/-- R120: the odd tail. `PK.PAD b0` is `PK.DIR b0, 0x00`, the step the pair at `POS` selects, and consumes one byte.
The rule's corner cases on `pack` stand beside it. -/
def Obligations.PkPadPacksTheOddTail : Prop :=
  (∀ buf : List Byte, buf.length % 2 = 1 → pack buf = pack (buf ++ [0x00#8])) ∧ pack [0xD9#8] = [0x00D9#16] ∧
  ∀ s b0, s.pk.run = true → s.pk.len % 2 = 1 → s.pk.pos + 1 = s.pk.len → s.pk.ibuf.read s.pk.pos = some b0 →
    fetchPair s.pk = some (b0, 0x00#8) ∧ reserved 0x00#8 = false ∧
    ∃ t u, exec (.pkPad b0) s = .next t ∧ exec (.pkDir b0 0x00#8) s = .next t ∧
      u.toNat = b0.toNat ∧ t.pk.obuf.read s.pk.olen = some u ∧ SameOutputBut [s.pk.olen] s.pk t.pk ∧
      t.pk.olen = s.pk.olen + 1 ∧ t.pk.pos = s.pk.len ∧
      t.pk.run = true ∧ SameInput s.pk t.pk ∧ SameButPk s t

/-- R114: `RUN` falls, no counter and no buffer is touched, and the Packer has no step until the next START. In a
state of a run (the invariant) the output is then `pack` of the whole input. That `exec` answers a step the Packer does
not have with a refusal is the model's choice (log 9). -/
def Obligations.PkHaltEndsTheOperation : Prop :=
  ∀ s, s.pk.run = true → s.pk.pos = s.pk.len →
    ∃ t, exec .pkHalt s = .next t ∧ t.pk.run = false ∧ t.pk.pos = s.pk.pos ∧ t.pk.olen = s.pk.olen ∧
      SameInput s.pk t.pk ∧ SameOutputBut [] s.pk t.pk ∧ SameButPk s t ∧
      (BlockInv s → t.pk.obuf.first t.pk.olen = (t.pk.ibuf.first t.pk.len).map pack) ∧
      ∀ i, i.engine = .pk → i ≠ .pkStart → ∃ r, exec i t = .refused r

/-- R171 under the preconditions of R177; any value with bit 0 = 1 written to `CTRL` is the command. -/
def Obligations.PkStartBeginsAnOperation : Prop :=
  ∀ s, StartLegal s.cfg.pkCap s.pk →
    ∃ t, exec .pkStart s = .next t ∧ t.pk.run = true ∧ t.pk.pos = 0 ∧ t.pk.olen = 0 ∧
      SameInput s.pk t.pk ∧ SameOutputBut [] s.pk t.pk ∧ SameButPk s t ∧
      ∀ v, (v % 2 = 1 → decode (.ctrl .pk v) = .ok .pkStart) ∧
        (v % 2 = 0 → decode (.ctrl .pk v) = .error .notACommand)

/-! ## The steps of the Unpacker -/

/-- R142, for both values of `DIRECT_ORDER`. -/
def Obligations.UpDirUnpacksUnitIntoTwoBytes : Prop :=
  ∀ s u, s.up.run = true → fetchUnit s.up = some u → reserved (high u) = false →
    ∃ t first second, exec (.upDir u) s = .next t ∧ decode (.unit u) = .ok (.upDir u) ∧
      (s.cfg.directOrder = .lowFirst → first.toNat = u.toNat % 256 ∧ second.toNat = u.toNat / 256) ∧
      (s.cfg.directOrder = .highFirst → first.toNat = u.toNat / 256 ∧ second.toNat = u.toNat % 256) ∧
      t.up.obuf.read s.up.olen = some first ∧ t.up.obuf.read (s.up.olen + 1) = some second ∧
      SameOutputBut [s.up.olen, s.up.olen + 1] s.up t.up ∧
      t.up.olen = s.up.olen + 2 ∧ t.up.pos = s.up.pos + 1 ∧
      t.up.run = true ∧ SameInput s.up t.up ∧ SameButUp s t

/-- R143: the low byte of ANY unit of the surrogate range, whatever stands before or after it. -/
def Obligations.UpHalfUnpacksUnitIntoOneByte : Prop :=
  ∀ s u, s.up.run = true → fetchUnit s.up = some u → reserved (high u) = true →
    ∃ t b, exec (.upHalf u) s = .next t ∧ decode (.unit u) = .ok (.upHalf u) ∧ b.toNat = u.toNat % 256 ∧
      t.up.obuf.read s.up.olen = some b ∧ SameOutputBut [s.up.olen] s.up t.up ∧
      t.up.olen = s.up.olen + 1 ∧ t.up.pos = s.up.pos + 1 ∧
      t.up.run = true ∧ SameInput s.up t.up ∧ SameButUp s t

/-- R144: `RUN` falls, no counter and no buffer is touched, and the Unpacker has no step until the next START. In a
state of a run (the invariant) the output is then `unpack` of the whole input. That `exec` answers a step the Unpacker does
not have with a refusal is the model's choice (log 9). -/
def Obligations.UpHaltEndsTheOperation : Prop :=
  ∀ s, s.up.run = true → s.up.pos = s.up.len →
    ∃ t, exec .upHalt s = .next t ∧ t.up.run = false ∧ t.up.pos = s.up.pos ∧ t.up.olen = s.up.olen ∧
      SameInput s.up t.up ∧ SameOutputBut [] s.up t.up ∧ SameButUp s t ∧
      (BlockInv s → t.up.obuf.first t.up.olen = (t.up.ibuf.first t.up.len).map (unpack s.cfg.directOrder)) ∧
      ∀ i, i.engine = .up → i ≠ .upStart → ∃ r, exec i t = .refused r

/-- R172 under the preconditions of R177; any value with bit 0 = 1 written to `CTRL` is the command. -/
def Obligations.UpStartBeginsAnOperation : Prop :=
  ∀ s, StartLegal s.cfg.upCap s.up →
    ∃ t, exec .upStart s = .next t ∧ t.up.run = true ∧ t.up.pos = 0 ∧ t.up.olen = 0 ∧
      SameInput s.up t.up ∧ SameOutputBut [] s.up t.up ∧ SameButUp s t ∧
      ∀ v, (v % 2 = 1 → decode (.ctrl .up v) = .ok .upStart) ∧
        (v % 2 = 0 → decode (.ctrl .up v) = .error .notACommand)

/-! ## Which step an engine has -/

/-- R177, R178: a START completes exactly under its preconditions and is refused otherwise. -/
def Obligations.StartCompletesExactlyWhenLegal : Prop :=
  ∀ s, ((∃ t, exec .pkStart s = .next t) ↔ StartLegal s.cfg.pkCap s.pk) ∧
    ((∃ r, exec .pkStart s = .refused r) ↔ ¬ StartLegal s.cfg.pkCap s.pk) ∧
    ((∃ t, exec .upStart s = .next t) ↔ StartLegal s.cfg.upCap s.up) ∧
    ((∃ r, exec .upStart s = .refused r) ↔ ¬ StartLegal s.cfg.upCap s.up)

/-- R115 and R145: an engine is deterministic. Whatever its instructions that complete in a state, they reach the same
state (`PK.PAD b0` and `PK.DIR b0, 0x00` are two names of one step, R120). That `exec` completes only the step the
rules enable, with the operands at `POS`, is the model's choice (log 9). -/
def Obligations.EngineHasOneOutcome : Prop :=
  ∀ s i j t t', i.engine = j.engine → exec i s = .next t → exec j s = .next t' → t = t'

/-- R115 and R145, with `RUN = 0` an engine has no step: every instruction but START is refused, and its turn changes
nothing. Two parts are the model's choice: that `exec` answers a step the engine does not have with a refusal (log 9),
and that a turn without a step is a step that changes nothing (log 3). -/
def Obligations.EngineAtRestHasNoStep : Prop :=
  (∀ s i, s.running i.engine = false → i ≠ .pkStart → i ≠ .upStart → ∃ r, exec i s = .refused r) ∧
  (∀ s e rest, s.running e = false → s.agenda = .engine e :: rest → step s = .next { s with agenda := rest }) ∧
  (∀ s, s.pk.run = false → s.up.run = false → s.agenda = [] → step s = .next s)

/-- R115: with `RUN = 0` the Packer has no step, which as a turn that changes nothing is the model's choice (log 3);
with `RUN = 1` its step is `PK.HALT` at the end of the input, otherwise `PK.ESC` or `PK.DIR` by `reserved(b1)` of the
pair at `POS`. -/
def Obligations.PackerDispatchesOnPosAndSecondByte : Prop :=
  ∀ s rest, s.agenda = .engine .pk :: rest →
    (s.pk.run = false → step s = .next { s with agenda := rest }) ∧
    (s.pk.run = true → s.pk.pos = s.pk.len → step s = exec .pkHalt { s with agenda := rest }) ∧
    (∀ b0 b1, s.pk.run = true → fetchPair s.pk = some (b0, b1) → 0xD8 ≤ b1.toNat → b1.toNat ≤ 0xDF →
      step s = exec (.pkEsc b0 b1) { s with agenda := rest }) ∧
    (∀ b0 b1, s.pk.run = true → fetchPair s.pk = some (b0, b1) → (b1.toNat < 0xD8 ∨ 0xDF < b1.toNat) →
      step s = exec (.pkDir b0 b1) { s with agenda := rest })

/-- R145: with `RUN = 0` the Unpacker has no step, which as a turn that changes nothing is the model's choice (log 3);
with `RUN = 1` its step is `UP.HALT` at the end of the input, otherwise `UP.HALF` or `UP.DIR` by the high byte of the
unit at `POS`. -/
def Obligations.UnpackerDispatchesOnPosAndHighByte : Prop :=
  ∀ s rest, s.agenda = .engine .up :: rest →
    (s.up.run = false → step s = .next { s with agenda := rest }) ∧
    (s.up.run = true → s.up.pos = s.up.len → step s = exec .upHalt { s with agenda := rest }) ∧
    (∀ u, s.up.run = true → fetchUnit s.up = some u → 0xD800 ≤ u.toNat → u.toNat ≤ 0xDFFF →
      step s = exec (.upHalf u) { s with agenda := rest }) ∧
    (∀ u, s.up.run = true → fetchUnit s.up = some u → (u.toNat < 0xD800 ∨ 0xDFFF < u.toNat) →
      step s = exec (.upDir u) { s with agenda := rest })

/-- When the word an engine fetches decodes to `i`, its move is `exec i`: on its turn in the agenda, or with no event
left, the Packer first (that order is the model's choice, log 2). -/
def Obligations.StepRunsTheDecodedInstruction : Prop :=
  ∀ s e w i, s.running e = true → fetch e s = .ok w → decode w = .ok i →
    (s.agenda = [] → e = .pk ∨ s.pk.run = false → step s = exec i s) ∧
    (∀ rest, s.agenda = .engine e :: rest → step s = exec i { s with agenda := rest })

/-- R119, R149, R220, R226: an engine's move is never refused, whatever the elements of its input are. That
the turn of an engine at rest, and the step of a block at rest with no event left, complete as well is the model's choice
(log 3). -/
def Obligations.EngineMovesAlwaysComplete : Prop :=
  ∀ s, BlockInv s → (s.agenda = [] ∨ ∃ e rest, s.agenda = .engine e :: rest) → ∃ t, step s = .next t

/-! ## The host -/

/-- R173: a register read returns the register's value, at any time, and changes nothing of the block. -/
def Obligations.RegisterReadReturnsItsValue : Prop :=
  ∀ s e r rest, s.agenda = .host (.rdReg e r) :: rest →
    ∃ v, step s = .next { s with agenda := rest, reads := v :: s.reads } ∧
      (r = .ctrl → v = 0) ∧ (r = .status → v = if s.running e then 1 else 0) ∧
      (r = .len → v = match e with | .pk => s.pk.len | .up => s.up.len) ∧
      (r = .pos → v = match e with | .pk => s.pk.pos | .up => s.up.pos) ∧
      (r = .olen → v = match e with | .pk => s.pk.olen | .up => s.up.olen)

/-- R174 with R27 and R34: writes to `CTRL`, to `LEN` and to the read-only registers. -/
def Obligations.RegisterWriteFollowsItsAccess : Prop :=
  ∀ s e r v rest, s.agenda = .host (.wrReg e r v) :: rest →
    (r = .status ∨ r = .pos ∨ r = .olen → step s = .next { s with agenda := rest }) ∧
    (r = .ctrl → v % 2 = 0 → step s = .next { s with agenda := rest }) ∧
    (r = .ctrl → v % 2 = 1 → e = .pk → step s = exec .pkStart { s with agenda := rest }) ∧
    (r = .ctrl → v % 2 = 1 → e = .up → step s = exec .upStart { s with agenda := rest }) ∧
    (r = .len → e = .pk → s.pk.run = false → (∀ c, s.cfg.pkCap = some c → v ≤ c) →
      step s = .next { s with agenda := rest, pk := { s.pk with len := v } }) ∧
    (r = .len → e = .up → s.up.run = false → (∀ c, s.cfg.upCap = some c → v ≤ c) →
      step s = .next { s with agenda := rest, up := { s.up with len := v } }) ∧
    (r = .len → s.running e = true → ∃ q, step s = .refused q) ∧
    (r = .len → (e = .pk ∧ ∃ c, s.cfg.pkCap = some c ∧ c < v) ∨ (e = .up ∧ ∃ c, s.cfg.upCap = some c ∧ c < v) →
      ∃ q, step s = .refused q)

/-- R175, the writes: an input element takes the value; every other element and everything else stays. -/
def Obligations.InputWriteStoresOneElement : Prop :=
  (∀ s i v rest, s.agenda = .host (.wrBuf .pk .ibuf i v) :: rest → s.pk.run = false →
    (∀ c, s.cfg.pkCap = some c → i < c) → v < 2 ^ 8 →
    ∃ t b, step s = .next t ∧ b.toNat = v ∧ t.pk.ibuf.read i = some b ∧
      (∀ j, j ≠ i → t.pk.ibuf.read j = s.pk.ibuf.read j) ∧
      t = { s with agenda := rest, pk := { s.pk with ibuf := t.pk.ibuf } }) ∧
  (∀ s i v rest, s.agenda = .host (.wrBuf .up .ibuf i v) :: rest → s.up.run = false →
    (∀ c, s.cfg.upCap = some c → i < c) → v < 2 ^ 16 →
    ∃ t u, step s = .next t ∧ u.toNat = v ∧ t.up.ibuf.read i = some u ∧
      (∀ j, j ≠ i → t.up.ibuf.read j = s.up.ibuf.read j) ∧
      t = { s with agenda := rest, up := { s.up with ibuf := t.up.ibuf } })

/-- R175, the reads: the element is returned and nothing of the block changes. -/
def Obligations.BufferReadReturnsTheElement : Prop :=
  (∀ s i b rest, s.agenda = .host (.rdBuf .pk .ibuf i) :: rest → s.pk.run = false →
    (∀ c, s.cfg.pkCap = some c → i < c) → s.pk.ibuf.read i = some b →
    step s = .next { s with agenda := rest, reads := b.toNat :: s.reads }) ∧
  (∀ s j u rest, s.agenda = .host (.rdBuf .pk .obuf j) :: rest → s.pk.run = false →
    (∀ c, s.cfg.pkCap = some c → j < c) → j < s.pk.olen → s.pk.obuf.read j = some u →
    step s = .next { s with agenda := rest, reads := u.toNat :: s.reads }) ∧
  (∀ s i u rest, s.agenda = .host (.rdBuf .up .ibuf i) :: rest → s.up.run = false →
    (∀ c, s.cfg.upCap = some c → i < c) → s.up.ibuf.read i = some u →
    step s = .next { s with agenda := rest, reads := u.toNat :: s.reads }) ∧
  (∀ s j b rest, s.agenda = .host (.rdBuf .up .obuf j) :: rest → s.up.run = false →
    (∀ c, s.cfg.upCap = some c → j < 2 * c) → j < s.up.olen → s.up.obuf.read j = some b →
    step s = .next { s with agenda := rest, reads := b.toNat :: s.reads })

/-- R178: a host action is refused exactly when it breaks the protocol. That a read of an input element holding no
value, a write to `OBUF` and a value wider than the element count as breaches is read from R43 and R175 (logs 8, 18). -/
def Obligations.HostActionRefusedExactlyOnBreach : Prop :=
  ∀ s a rest, BlockInv s → s.agenda = .host a :: rest → ((∃ r, step s = .refused r) ↔ Breach s a)

/-- R180, R256, R171: while an engine rests, its output, `OLEN` and `POS` stay until its next START or a reset. -/
def Obligations.OutputStaysUntilNextStart : Prop :=
  ∀ s t, step s = .next t →
    (∀ ev rest, s.agenda = ev :: rest → ev ≠ .reset ∧ ev.isStart .pk = false ∧ ev.isStart .up = false) →
    (s.pk.run = false → t.pk.run = false ∧ t.pk.obuf = s.pk.obuf ∧ t.pk.olen = s.pk.olen ∧ t.pk.pos = s.pk.pos) ∧
    (s.up.run = false → t.up.run = false ∧ t.up.obuf = s.up.obuf ∧ t.up.olen = s.up.olen ∧ t.up.pos = s.up.pos)

/-! ## Decoding -/

/-- Decode and encode agree on every well-formed instruction, with every operand at every value. -/
def Obligations.DecodeOfEncodeIsTheInstruction : Prop :=
  ∀ i : Instr, i.wf = true → decode (encode i) = .ok i

/-- R89: no word of formats `P` and `U` is illegal; it decodes to a well-formed instruction that encodes back to it, so
no bit is dropped. At the odd tail the second byte of the word is the pad (R82), which leaves the words below 256. -/
def Obligations.EveryWordDecodesAndEncodesBack : Prop :=
  (∀ p : CodeUnit, ∃ i, decode (.pair p) = .ok i ∧ i.wf = true ∧ i.engine = .pk ∧ encode i = .pair p) ∧
  (∀ u : CodeUnit, ∃ i, decode (.unit u) = .ok i ∧ i.wf = true ∧ i.engine = .up ∧ encode i = .unit u) ∧
  (∀ p : CodeUnit, ∃ i, decode (.tail p) = .ok i ∧ i.wf = true ∧ i.engine = .pk ∧
    (p.toNat < 256 → encode i = .tail p))

/-- R80: what the engines decode are words of 16 bits, the odd tail widened to a full pair word first (R82), and the
same five bits classify the words of both formats. That the word of the tail is told from a pair by its position, is
named `PK.PAD` there, and keeps its other names where its second byte is not the pad, is the model's reading (log 11). -/
def Obligations.OperandWordsHaveSixteenBits : Prop :=
  (∀ (k : EngineState 8 16) b0 b1, k.pos + 1 < k.len → k.ibuf.read k.pos = some b0 →
    k.ibuf.read (k.pos + 1) = some b1 →
    ∃ p : CodeUnit, fetchPk k = .ok (.pair p) ∧ p.toNat = b1.toNat * 256 + b0.toNat) ∧
  (∀ (k : EngineState 8 16) b0, k.pos + 1 = k.len → k.len % 2 = 1 → k.ibuf.read k.pos = some b0 →
    ∃ p : CodeUnit, fetchPk k = .ok (.tail p) ∧ p.toNat = b0.toNat ∧
      decode (.tail p) = .ok (.pkPad b0) ∧ decode (.pair p) = .ok (.pkDir b0 0x00#8)) ∧
  (∀ (k : EngineState 16 8) u, k.pos < k.len → k.ibuf.read k.pos = some u → fetchUp k = .ok (.unit u)) ∧
  (∀ w : CodeUnit,
    (w.toNat / 2048 = 0b11011 → decode (.pair w) = .ok (.pkEsc (low w) (high w)) ∧
      decode (.tail w) = .ok (.pkEsc (low w) (high w)) ∧ decode (.unit w) = .ok (.upHalf w)) ∧
    (w.toNat / 2048 ≠ 0b11011 → decode (.pair w) = .ok (.pkDir (low w) (high w)) ∧
      (w.toNat < 256 → decode (.tail w) = .ok (.pkPad (low w))) ∧
      (256 ≤ w.toNat → decode (.tail w) = .ok (.pkDir (low w) (high w))) ∧
      decode (.unit w) = .ok (.upDir w)))

/-- R84, R85, R87: the six cubes partition the words; the cube `11011` selects the escape and the half, the other five
the direct steps, in both formats. -/
def Obligations.SixCubesPartitionTheWords : Prop :=
  ∀ w : CodeUnit,
    (([(0x8000#16, 0x0000#16), (0xC000#16, 0x8000#16), (0xF000#16, 0xC000#16), (0xF800#16, 0xD000#16),
       (0xE000#16, 0xE000#16), (0xF800#16, 0xD800#16)].filter (fun c => w &&& c.1 == c.2)).length = 1) ∧
    (w &&& 0xF800#16 = 0xD800#16 → decode (.pair w) = .ok (.pkEsc (low w) (high w)) ∧
      decode (.unit w) = .ok (.upHalf w)) ∧
    (w &&& 0xF800#16 ≠ 0xD800#16 → decode (.pair w) = .ok (.pkDir (low w) (high w)) ∧
      decode (.unit w) = .ok (.upDir w))

/-- Words written out from the layouts of R81 and R83 (95_test_vectors.md, programs P1 and P2). -/
def Obligations.SampleWordsDecodeAsWritten : Prop :=
  decode (.pair 0b0110010101001000#16) = .ok (.pkDir 0x48#8 0x65#8) ∧
  decode (.pair 0b1101101101101100#16) = .ok (.pkEsc 0x6C#8 0xDB#8) ∧
  decode (.tail 0b0000000001101111#16) = .ok (.pkPad 0x6F#8) ∧
  decode (.unit 0b0110010101001000#16) = .ok (.upDir 0x6548#16) ∧
  decode (.unit 0b1101100001101100#16) = .ok (.upHalf 0xD86C#16) ∧
  decode (.ctrl .pk 0b11) = .ok .pkStart ∧ decode (.ctrl .up 0b1) = .ok .upStart ∧
  decode (.ctrl .up 0b10) = .error .notACommand

/-- The instruction read from a word of the table is the one the next step runs when the word is placed by
`withFetchWord`, and it completes. How a word is placed is the model's choice (logs 13, 14). -/
def Obligations.PlacedTableWordIsRunNext : Prop :=
  ∀ (s : State) nbits w i, decodeTableWord nbits w = some i →
    step (s.withFetchWord nbits w) = exec i (s.withFetchWord nbits w) ∧
    ∃ t, exec i (s.withFetchWord nbits w) = .next t

/-! ## Rules of the whole machine -/

/-- R41, R253: nothing writes the parameters. -/
def Obligations.ParametersNeverChange : Prop :=
  ∀ s t, step s = .next t → t.cfg = s.cfg

/-- R24, R68: the input of an operation is fixed from START to HALT; only a reset ends that. -/
def Obligations.InputIsFixedDuringARun : Prop :=
  ∀ s t, step s = .next t → (∀ rest, s.agenda ≠ .reset :: rest) →
    (s.pk.run = true → t.pk.len = s.pk.len ∧ t.pk.ibuf = s.pk.ibuf) ∧
    (s.up.run = true → t.up.len = s.up.len ∧ t.up.ibuf = s.up.ibuf)

/-- R26, R31: `RUN` rises only at a START of that engine, and falls only at its HALT, taken at `POS = LEN`, or at a
reset (R252). -/
def Obligations.RunChangesOnlyAtStartHaltReset : Prop :=
  (∀ s t e, step s = .next t → s.running e = false → t.running e = true →
    ∃ ev rest, s.agenda = ev :: rest ∧ ev.isStart e = true) ∧
  (∀ s t, step s = .next t → s.pk.run = true → t.pk.run = false →
    (∃ rest, s.agenda = .reset :: rest) ∨ (s.pk.pos = s.pk.len ∧ t.pk = { s.pk with run := false })) ∧
  (∀ s t, step s = .next t → s.up.run = true → t.up.run = false →
    (∃ rest, s.agenda = .reset :: rest) ∨ (s.up.pos = s.up.len ∧ t.up = { s.up with run := false }))

/-- R23, R29, R146: during a run the position never decreases, and the Unpacker's moves forward by at most 1. -/
def Obligations.PositionNeverDecreasesInARun : Prop :=
  ∀ s t, step s = .next t →
    (s.pk.run = true → t.pk.run = true → s.pk.pos ≤ t.pk.pos ∧ t.pk.pos ≤ s.pk.pos + 2) ∧
    (s.up.run = true → t.up.run = true → s.up.pos ≤ t.up.pos ∧ t.up.pos ≤ s.up.pos + 1)

/-- R70: neither engine reads or writes any state of the other: with the other engine in any other state, the same
instruction does the same. -/
def Obligations.EnginesDoNotSeeEachOther : Prop :=
  (∀ s t i k, i.engine = .pk → exec i s = .next t → t.up = s.up ∧ exec i { s with up := k } = .next { t with up := k }) ∧
  (∀ s t i k, i.engine = .up → exec i s = .next t → t.pk = s.pk ∧ exec i { s with pk := k } = .next { t with pk := k })

/-- R70, R223: steps of the two engines may be taken in either order with the same result. -/
def Obligations.StepsOfTheTwoEnginesCommute : Prop :=
  ∀ s i j t t', i.engine = .pk → j.engine = .up → exec i s = .next t → exec j s = .next t' →
    ∃ u, exec j t = .next u ∧ exec i t' = .next u

/-! ## The engines compute D00's functions -/

/-- R116, R118, R179, R181: from any state at rest, START then `⌈N/2⌉` data steps and one HALT leave
`OBUF[0 .. OLEN-1] = pack(IBUF[0 .. LEN-1])`, the input as it was, and the Unpacker untouched; `RUN` is 1 in between.
That the engine moves while the host is silent is the model's choice (log 2). -/
def Obligations.PackRunComputesPack : Prop :=
  ∀ s buf v, BlockInv s → s.pk.run = false → s.agenda = [.host (.wrReg .pk .ctrl v)] → v % 2 = 1 →
    s.pk.ibuf.first s.pk.len = some buf →
    (∃ t : State, core.run ((s.pk.len + 1) / 2 + 2) s = .next t ∧ t.pk.run = false ∧ t.pk.pos = s.pk.len ∧
      t.pk.len = s.pk.len ∧ t.pk.ibuf = s.pk.ibuf ∧ t.pk.olen = (pack buf).length ∧
      t.pk.obuf.first t.pk.olen = some (pack buf) ∧ t.up = s.up) ∧
    ∀ n, n ≤ (s.pk.len + 1) / 2 → ∃ t : State, core.run (n + 1) s = .next t ∧ t.pk.run = true

/-- R146, R148, R179, R181, for the Unpacker beside a resting Packer: START, `M` data steps, one HALT. That the engine
moves while the host is silent is the model's choice (log 2). -/
def Obligations.UnpackRunComputesUnpack : Prop :=
  ∀ s units v, BlockInv s → s.pk.run = false → s.up.run = false → s.agenda = [.host (.wrReg .up .ctrl v)] → v % 2 = 1 →
    s.up.ibuf.first s.up.len = some units →
    (∃ t : State, core.run (s.up.len + 2) s = .next t ∧ t.up.run = false ∧ t.up.pos = s.up.len ∧
      t.up.len = s.up.len ∧ t.up.ibuf = s.up.ibuf ∧ t.up.olen = (unpack s.cfg.directOrder units).length ∧
      t.up.obuf.first t.up.olen = some (unpack s.cfg.directOrder units) ∧ t.pk = s.pk) ∧
    ∀ n, n ≤ s.up.len → ∃ t : State, core.run (n + 1) s = .next t ∧ t.up.run = true

/-! ## The functions and their laws -/

/-- R110: `pack` is pair by pair, pair `k` being `buf[2k]` and `buf[2k+1]` or the pad, and `packPair` has the values of
R110. -/
def Obligations.PackIsPairByPair : Prop :=
  (∀ buf : List Byte, pack buf = (List.range ((buf.length + 1) / 2)).flatMap
    (fun k => packPair (buf[2 * k]?.getD 0x00#8) (buf[2 * k + 1]?.getD 0x00#8))) ∧
  (∀ b0 b1 : Byte, (packPair b0 b1).map BitVec.toNat =
    if 0xD8 ≤ b1.toNat ∧ b1.toNat ≤ 0xDF then [0xD800 + b0.toNat, 0xDC00 + b1.toNat]
    else [b1.toNat * 256 + b0.toNat])

/-- R140: `unpack` is unit by unit, and `unpackUnit` has the values of R140 for both values of `DIRECT_ORDER`. -/
def Obligations.UnpackIsUnitByUnit : Prop :=
  (∀ o (s : List CodeUnit), unpack o s = s.flatMap (unpackUnit o)) ∧
  (∀ u : CodeUnit,
    (0xD800 ≤ u.toNat ∧ u.toNat ≤ 0xDFFF → ∀ o, (unpackUnit o u).map BitVec.toNat = [u.toNat % 256]) ∧
    (¬ (0xD800 ≤ u.toNat ∧ u.toNat ≤ 0xDFFF) →
      (unpackUnit .lowFirst u).map BitVec.toNat = [u.toNat % 256, u.toNat / 256] ∧
      (unpackUnit .highFirst u).map BitVec.toNat = [u.toNat / 256, u.toNat % 256]))

/-- R194: with `LOW_FIRST`, unpacking a packed buffer gives the padded buffer: the buffer itself for even lengths,
with one `0x00` appended for odd ones. -/
def Obligations.RoundTripGivesThePaddedBuffer : Prop :=
  ∀ buf : List Byte,
    (buf.length % 2 = 0 → unpack .lowFirst (pack buf) = buf) ∧
    (buf.length % 2 = 1 → unpack .lowFirst (pack buf) = buf ++ [0x00#8])

/-- R196: with `HIGH_FIRST` every direct pair comes out swapped, so the round trip holds exactly when every direct pair
has `b0 = b1`. -/
def Obligations.HighFirstSwapsEveryDirectPair : Prop :=
  ∀ buf : List Byte,
    unpack .highFirst (pack buf) =
      (pairs buf).flatMap (fun p => if reserved p.2 then [p.1, p.2] else [p.2, p.1]) ∧
    (unpack .highFirst (pack buf) = pad buf ↔ ∀ p ∈ pairs buf, reserved p.2 = false → p.1 = p.2) ∧
    pack [0x7F#8] = [0x007F#16] ∧ unpack .highFirst [0x007F#16] = [0x00#8, 0x7F#8]

/-- R192: one unit for each pair and one more for each escape; the bounds, and when the upper one is met. -/
def Obligations.PackLengthCountsEscapes : Prop :=
  ∀ buf : List Byte,
    (pack buf).length = (buf.length + 1) / 2 + escapes buf ∧ escapes buf ≤ buf.length / 2 ∧
    (buf.length + 1) / 2 ≤ (pack buf).length ∧ (pack buf).length ≤ buf.length ∧
    ((pack buf).length = buf.length ↔ ∀ k b, buf[2 * k + 1]? = some b → reserved b = true)

/-- R193: two bytes for a direct unit, one for a reserved one, whatever `DIRECT_ORDER` is. -/
def Obligations.UnpackLengthCountsHalves : Prop :=
  (∀ o (s : List CodeUnit), (unpack o s).length + halves s = 2 * s.length ∧
    s.length ≤ (unpack o s).length ∧ (unpack o s).length ≤ 2 * s.length) ∧
  (∀ buf : List Byte, halves (pack buf) = 2 * escapes buf) ∧
  (∀ o (buf : List Byte), (unpack o (pack buf)).length = 2 * ((buf.length + 1) / 2) ∧
    (unpack o (pack buf)).length = (pad buf).length)

/-- R198: the canonical sequences are exactly the image of `pack`; the buffer of even length behind one is
its `LOW_FIRST` unpacking. -/
def Obligations.CanonicalSequencesAreThePackedOnes : Prop :=
  ∀ s : List CodeUnit, (Canonical s ↔ ∃ buf : List Byte, pack buf = s) ∧
    (Canonical s → (unpack .lowFirst s).length % 2 = 0 ∧ pack (unpack .lowFirst s) = s)

/-- R199: packing an unpacked sequence gives it back exactly when it is canonical, with `LOW_FIRST`; with `HIGH_FIRST`
it fails even for a canonical one. The rule's explicit tests stand beside it. -/
def Obligations.RepackIsIdentityExactlyOnCanonical : Prop :=
  (∀ s : List CodeUnit, pack (unpack .lowFirst s) = s ↔ Canonical s) ∧
  (unpack .lowFirst [0xD941#16] = [0x41#8] ∧ pack [0x41#8] = [0x0041#16]) ∧
  (unpack .lowFirst [0xD841#16] = [0x41#8] ∧ pack [0x41#8] = [0x0041#16]) ∧
  (unpack .lowFirst [0xD841#16, 0xDC20#16] = [0x41#8, 0x20#8] ∧ pack [0x41#8, 0x20#8] = [0x2041#16]) ∧
  (unpack .lowFirst [0xDCD9#16, 0xD841#16] = [0xD9#8, 0x41#8] ∧ pack [0xD9#8, 0x41#8] = [0x41D9#16]) ∧
  Canonical [0x0041#16] ∧ unpack .highFirst [0x0041#16] = [0x00#8, 0x41#8] ∧ pack [0x00#8, 0x41#8] = [0x4100#16]

/-- R201: `pack` is injective up to the padding. -/
def Obligations.PackForgetsOnlyThePadding : Prop :=
  (∀ buf : List Byte, pack buf = pack (pad buf)) ∧
  (∀ a b : List Byte, pack a = pack b ↔ pad a = pad b) ∧
  (∀ a b : List Byte, a.length % 2 = 0 → b.length % 2 = 0 → pack a = pack b → a = b) ∧
  pack [0x7F#8] = [0x007F#16] ∧ pack [0x7F#8, 0x00#8] = [0x007F#16]

/-- R202: `unpack` distributes over concatenation; `pack` does where the first part has even length. -/
def Obligations.ConcatenationLaws : Prop :=
  (∀ o (s t : List CodeUnit), unpack o (s ++ t) = unpack o s ++ unpack o t) ∧
  (∀ a b : List Byte, a.length % 2 = 0 → pack (a ++ b) = pack a ++ pack b) ∧
  pack ([0x01#8] ++ [0x02#8]) = [0x0201#16] ∧ pack [0x01#8] ++ pack [0x02#8] = [0x0001#16, 0x0002#16]

/-- R197: the packed sequence holds no isolated surrogate. -/
def Obligations.PackedSurrogatesComeInPairs : Prop :=
  ∀ buf : List Byte,
    (∀ (i : Nat) (h : CodeUnit), (pack buf)[i]? = some h → 0xD800 ≤ h.toNat → h.toNat ≤ 0xDBFF →
      h.toNat ≤ 0xD8FF ∧
        ∃ l : CodeUnit, (pack buf)[i + 1]? = some l ∧ 0xDCD8 ≤ l.toNat ∧ l.toNat ≤ 0xDCDF) ∧
    (∀ (i : Nat) (l : CodeUnit), (pack buf)[i]? = some l → 0xDC00 ≤ l.toNat → l.toNat ≤ 0xDFFF →
      (0xDCD8 ≤ l.toNat ∧ l.toNat ≤ 0xDCDF) ∧
        ∃ (j : Nat) (h : CodeUnit), i = j + 1 ∧ (pack buf)[j]? = some h ∧ 0xD800 ≤ h.toNat ∧ h.toNat ≤ 0xD8FF) ∧
    halves (pack buf) = 2 * escapes buf

/-- R56: a run of direct units stored little-endian reproduces the bytes in place. -/
def Obligations.LittleEndianStorageReproducesBytes : Prop :=
  ∀ buf : List Byte, buf.length % 2 = 0 → escapes buf = 0 → serial .le (pack buf) = buf

/-- R203 (from general knowledge, log 24): the code point of an escaped pair. -/
def Obligations.EscapedPairIsACodePoint : Prop :=
  ∀ b0 b1 : Byte, reserved b1 = true →
    ∃ h l : CodeUnit, packPair b0 b1 = [h, l] ∧ codePoint h l = 0x10000 + b0.toNat * 1024 + b1.toNat ∧
      0x100D8 ≤ codePoint h l ∧ codePoint h l ≤ 0x4FCDF
end

