-- ==== Sys2Proof/Laws/Bits.lean ====
section
/-! SUPPORT. Laws/Bits.lean: what the unit layouts are as numbers, and their fields (43_codec_laws.md R191). -/

namespace Sys2Proof.Machine

theorem low_toNat (u : CodeUnit) : (low u).toNat = u.toNat % 256 := by
  simp [low, BitVec.extractLsb'_toNat]

theorem high_toNat (u : CodeUnit) : (high u).toNat = u.toNat / 256 := by
  have := u.isLt
  simp [high, BitVec.extractLsb'_toNat, Nat.shiftRight_eq_div_pow]
  omega

theorem pairWord_toNat (b0 b1 : Byte) : (pairWord b0 b1).toNat = b1.toNat * 256 + b0.toNat := by
  have := b0.isLt
  rw [pairWord, BitVec.toNat_append, Nat.shiftLeft_eq, Nat.mul_comm, ← Nat.two_pow_add_eq_or_of_lt this,
    Nat.mul_comm]

theorem escHi_toNat (b0 : Byte) : (escHi b0).toNat = 0xD800 + b0.toNat := by
  have := b0.isLt
  simp [escHi, escHiBase]; omega

theorem escLo_toNat (b1 : Byte) : (escLo b1).toNat = 0xDC00 + b1.toNat := by
  have := b1.isLt
  simp [escLo, escLoBase]; omega

theorem padUnit_toNat (b0 : Byte) : (padUnit b0).toNat = b0.toNat := by
  have := b0.isLt
  simp [padUnit]; omega

theorem reserved_iff (h : Byte) : reserved h = true ↔ 0xD8 ≤ h.toNat ∧ h.toNat ≤ 0xDF := by
  simp [reserved, resLo, resHi, BitVec.le_def]

theorem not_reserved_iff (h : Byte) : reserved h = false ↔ h.toNat < 0xD8 ∨ 0xDF < h.toNat := by
  rw [← Bool.not_eq_true, reserved_iff]; omega

theorem reserved_high_iff (u : CodeUnit) : reserved (high u) = true ↔ 0xD800 ≤ u.toNat ∧ u.toNat ≤ 0xDFFF := by
  rw [reserved_iff, high_toNat]; omega

@[simp] theorem reserved_pad : reserved padByte = false := by decide

@[simp] theorem low_pairWord (b0 b1 : Byte) : low (pairWord b0 b1) = b0 := by
  apply BitVec.eq_of_toNat_eq
  have := b0.isLt
  rw [low_toNat, pairWord_toNat]; omega

@[simp] theorem high_pairWord (b0 b1 : Byte) : high (pairWord b0 b1) = b1 := by
  apply BitVec.eq_of_toNat_eq
  have := b0.isLt
  rw [high_toNat, pairWord_toNat]; omega

@[simp] theorem pairWord_low_high (u : CodeUnit) : pairWord (low u) (high u) = u := by
  apply BitVec.eq_of_toNat_eq
  rw [pairWord_toNat, low_toNat, high_toNat]; omega

@[simp] theorem low_escHi (b0 : Byte) : low (escHi b0) = b0 := by
  apply BitVec.eq_of_toNat_eq
  have := b0.isLt
  rw [low_toNat, escHi_toNat]; omega

@[simp] theorem low_escLo (b1 : Byte) : low (escLo b1) = b1 := by
  apply BitVec.eq_of_toNat_eq
  have := b1.isLt
  rw [low_toNat, escLo_toNat]; omega

@[simp] theorem reserved_high_escHi (b0 : Byte) : reserved (high (escHi b0)) = true := by
  have := b0.isLt
  rw [reserved_high_iff, escHi_toNat]; omega

@[simp] theorem reserved_high_escLo (b1 : Byte) : reserved (high (escLo b1)) = true := by
  have := b1.isLt
  rw [reserved_high_iff, escLo_toNat]; omega

/-- The unit of the odd tail is the direct unit of the pair completed by the pad (40_packer.md R120). -/
theorem padUnit_eq (b0 : Byte) : padUnit b0 = pairWord b0 padByte := by
  apply BitVec.eq_of_toNat_eq
  rw [padUnit_toNat, pairWord_toNat]; simp [padByte]

/-- The pair word of the odd tail, completed by the pad decodes, at the odd tail, to the pad step. -/
@[simp] theorem decodeTail_pad (b0 : Byte) : decodeTail (pairWord b0 padByte) = .pkPad b0 := by simp [decodeTail]

end Sys2Proof.Machine
end

