-- ==== Sys2Proof/Laws/Codec.lean ====
section
/-! SUPPORT. Laws/Codec.lean: how `pack` and `unpack` grow with their input. -/

namespace Sys2Proof.Machine

theorem packPair_direct {b0 b1 : Byte} (h : reserved b1 = false) : packPair b0 b1 = [pairWord b0 b1] := by
  simp [packPair, h]

theorem packPair_escape {b0 b1 : Byte} (h : reserved b1 = true) : packPair b0 b1 = [escHi b0, escLo b1] := by
  simp [packPair, h]

/-- Two bytes more at an even offset pack to one pair more (40_packer.md R118). -/
theorem pack_append_pair (l : List Byte) (b0 b1 : Byte) (h : l.length % 2 = 0) :
    pack (l ++ [b0, b1]) = pack l ++ packPair b0 b1 := by
  match l with
  | [] => simp [pack]
  | [_] => simp at h
  | x :: y :: rest =>
    have : rest.length % 2 = 0 := by simp only [List.length_cons] at h; omega
    simp [pack, pack_append_pair rest b0 b1 this]

/-- One byte more at an even offset, the last one, packs to the pair it forms with the pad. -/
theorem pack_append_one (l : List Byte) (b0 : Byte) (h : l.length % 2 = 0) :
    pack (l ++ [b0]) = pack l ++ packPair b0 padByte := by
  match l with
  | [] => simp [pack]
  | [_] => simp at h
  | x :: y :: rest =>
    have : rest.length % 2 = 0 := by simp only [List.length_cons] at h; omega
    simp [pack, pack_append_one rest b0 this]

/-- One unit more unpacks to its bytes more (41_unpacker.md R148). -/
theorem unpack_append_one (o : DirectOrder) (l : List CodeUnit) (u : CodeUnit) :
    unpack o (l ++ [u]) = unpack o l ++ unpackUnit o u := by
  induction l with
  | nil => simp [unpack]
  | cons x rest ih => simp [unpack, ih]

/-- The bytes of a direct unit are the ones `UP.DIR` emits. -/
theorem unpackUnit_direct {u : CodeUnit} (h : reserved (high u) = false) (o : DirectOrder) :
    unpackUnit o u = match o with | .lowFirst => [low u, high u] | .highFirst => [high u, low u] := by
  cases o <;> simp [unpackUnit, h]

theorem unpackUnit_half {u : CodeUnit} (h : reserved (high u) = true) (o : DirectOrder) :
    unpackUnit o u = [low u] := by simp [unpackUnit, h]

end Sys2Proof.Machine
end

