-- ==== Sys2Proof/Laws/Memory.lean ====
section
/-! SUPPORT. Laws/Memory.lean: read after write, the canonical form, capacities, and the sequence at the start of a
buffer. -/

namespace Sys2Proof.Machine

variable {w : Nat}

@[simp] theorem read_nil (i : Nat) : Memory.read ([] : Memory w) i = none := rfl

/-- Reading the element just written. -/
@[simp] theorem read_write_same (m : Memory w) (i : Nat) (v : BitVec w) : (m.write i v).read i = some v := by
  induction m with
  | nil => simp [Memory.write, Memory.read]
  | cons c rest ih =>
    obtain ⟨a, x⟩ := c
    simp only [Memory.write]
    split
    · simp [Memory.read]
    · split
      · simp [Memory.read]
      · simp only [Memory.read]; split
        · omega
        · exact ih

/-- A write leaves every other element alone. -/
theorem read_write_other (m : Memory w) {i j : Nat} (v : BitVec w) (h : j ≠ i) :
    (m.write i v).read j = m.read j := by
  induction m with
  | nil => simp [Memory.write, Memory.read, Ne.symm h]
  | cons c rest ih =>
    obtain ⟨a, x⟩ := c
    simp only [Memory.write]
    split
    · simp only [Memory.read, Ne.symm h, if_false]
    · split
      · subst_vars; simp only [Memory.read, Ne.symm h, if_false]
      · simp only [Memory.read]; rw [ih]

/-- Every index listed after a write was listed before or is the one written. -/
theorem mem_write {m : Memory w} {i : Nat} {v : BitVec w} {c : Nat × BitVec w} (h : c ∈ m.write i v) :
    c.1 = i ∨ c ∈ m := by
  induction m with
  | nil => simp [Memory.write] at h; simp [h]
  | cons d rest ih =>
    obtain ⟨a, x⟩ := d
    simp only [Memory.write] at h
    split at h
    · rcases List.mem_cons.1 h with rfl | h'
      · exact .inl rfl
      · exact .inr h'
    · split at h
      · rcases List.mem_cons.1 h with rfl | h'
        · exact .inl rfl
        · exact .inr (List.mem_cons_of_mem _ h')
      · rcases List.mem_cons.1 h with rfl | h'
        · exact .inr List.mem_cons_self
        · exact (ih h').imp id (List.mem_cons_of_mem _)

/-- A write keeps the canonical form. -/
theorem write_wf {m : Memory w} (i : Nat) (v : BitVec w) (h : m.wf) : (m.write i v).wf := by
  induction m with
  | nil => simp [Memory.write, Memory.wf]
  | cons d rest ih =>
    obtain ⟨a, x⟩ := d
    have hd := List.pairwise_cons.1 h
    simp only [Memory.write]
    split
    · refine List.pairwise_cons.2 ⟨fun c hc => ?_, h⟩
      rcases List.mem_cons.1 hc with rfl | hc'
      · assumption
      · have := hd.1 c hc'; simp only at this ⊢; omega
    · split
      · subst_vars; exact List.pairwise_cons.2 ⟨hd.1, hd.2⟩
      · refine List.pairwise_cons.2 ⟨fun c hc => ?_, ih hd.2⟩
        rcases mem_write hc with hc' | hc'
        · simp only [hc']; omega
        · exact hd.1 c hc'

/-- A write inside the capacity keeps every index inside it. -/
theorem write_below {m : Memory w} {cap : Option Nat} {i : Nat} (v : BitVec w) (h : m.below cap = true)
    (hi : belowCap cap i = true) : (m.write i v).below cap = true := by
  simp only [Memory.below, List.all_eq_true] at h ⊢
  intro c hc
  rcases mem_write hc with hc' | hc'
  · rw [hc']; exact hi
  · exact h c hc'

/-- The canonical form of the empty memory. -/
theorem nil_wf : Memory.wf ([] : Memory w) := List.Pairwise.nil

/-- All four memories are canonical after reset. -/
theorem reset_memories_wf : State.reset.pk.ibuf.wf ∧ State.reset.pk.obuf.wf ∧ State.reset.up.ibuf.wf ∧
    State.reset.up.obuf.wf := ⟨nil_wf, nil_wf, nil_wf, nil_wf⟩

/-! ### The first `n` elements -/

@[simp] theorem first_zero (m : Memory w) : m.first 0 = some [] := rfl

theorem first_succ {m : Memory w} {n : Nat} {l : List (BitVec w)} {v : BitVec w} (hl : m.first n = some l)
    (hv : m.read n = some v) : m.first (n + 1) = some (l ++ [v]) := by
  simp [Memory.first, hl, hv]

/-- The first `n + 1` elements are the first `n` and the one after them. -/
theorem first_succ_inv {m : Memory w} {n : Nat} {l : List (BitVec w)} (h : m.first (n + 1) = some l) :
    ∃ l' v, m.first n = some l' ∧ m.read n = some v ∧ l = l' ++ [v] := by
  simp only [Memory.first] at h
  split at h
  · exact ⟨_, _, ‹_›, ‹_›, by simpa using h.symm⟩
  · cases h

theorem first_length {m : Memory w} {n : Nat} {l : List (BitVec w)} (h : m.first n = some l) : l.length = n := by
  induction n generalizing l with
  | zero => simp [Memory.first] at h; simp [← h]
  | succ n ih =>
    obtain ⟨l', v, hl, -, rfl⟩ := first_succ_inv h
    simp [ih hl]

/-- Each of the first `n` elements is read at its index. -/
theorem first_read {m : Memory w} {n : Nat} {l : List (BitVec w)} (h : m.first n = some l) {i : Nat} (hi : i < n) :
    m.read i = l[i]? := by
  induction n generalizing l with
  | zero => omega
  | succ n ih =>
    obtain ⟨l', v, hl, hv, rfl⟩ := first_succ_inv h
    have hlen := first_length hl
    by_cases hin : i < n
    · rw [ih hl hin, List.getElem?_append_left (by omega)]
    · have : i = n := by omega
      subst this
      rw [hv, ← hlen]; simp

/-- A shorter start of a buffer is a start of the longer one. -/
theorem first_take {m : Memory w} {n : Nat} {l : List (BitVec w)} (h : m.first n = some l) {k : Nat} (hk : k ≤ n) :
    m.first k = some (l.take k) := by
  induction n generalizing l with
  | zero =>
    have : k = 0 := by omega
    subst this; simp
  | succ n ih =>
    obtain ⟨l', v, hl, hv, rfl⟩ := first_succ_inv h
    have hlen := first_length hl
    by_cases hkn : k ≤ n
    · rw [ih hl hkn, List.take_append_of_le_length (by omega)]
    · have : k = n + 1 := by omega
      subst this
      rw [h, List.take_of_length_le (by simp [hlen])]

/-- A write at or after index `n` does not touch the first `n` elements. -/
theorem first_write_after (m : Memory w) {n i : Nat} (v : BitVec w) (h : n ≤ i) : (m.write i v).first n = m.first n := by
  induction n with
  | zero => rfl
  | succ n ih =>
    simp only [Memory.first]
    rw [ih (by omega), read_write_other m v (by omega)]

/-- Writing the element after the first `n` extends the sequence. -/
theorem first_write_end {m : Memory w} {n : Nat} {l : List (BitVec w)} (v : BitVec w) (h : m.first n = some l) :
    (m.write n v).first (n + 1) = some (l ++ [v]) :=
  first_succ (by rw [first_write_after m v (Nat.le_refl n), h]) (read_write_same m n v)

/-- The first `n` elements all hold a value exactly when each of them does. -/
theorem first_isSome_iff (m : Memory w) (n : Nat) : (m.first n).isSome = true ↔ ∀ i, i < n → ∃ v, m.read i = some v := by
  induction n with
  | zero => simp
  | succ n ih =>
    constructor
    · intro h i hi
      obtain ⟨l, hl⟩ := Option.isSome_iff_exists.1 h
      have hlen := first_length hl
      exact ⟨l[i], by rw [first_read hl hi, List.getElem?_eq_getElem (by omega)]⟩
    · intro h
      obtain ⟨l, hl⟩ := Option.isSome_iff_exists.1 (ih.2 fun i hi => h i (by omega))
      obtain ⟨v, hv⟩ := h n (by omega)
      simp [first_succ hl hv]

/-! ### Capacities -/

theorem withinCap_iff (cap : Option Nat) (v : Nat) : withinCap cap v = true ↔ ∀ c, cap = some c → v ≤ c := by
  cases cap <;> simp [withinCap]

theorem belowCap_iff (cap : Option Nat) (i : Nat) : belowCap cap i = true ↔ ∀ c, cap = some c → i < c := by
  cases cap <;> simp [belowCap]

@[simp] theorem withinCap_zero (cap : Option Nat) : withinCap cap 0 = true := by cases cap <;> simp [withinCap]

@[simp] theorem below_nil (cap : Option Nat) : Memory.below ([] : Memory w) cap = true := rfl

end Sys2Proof.Machine
end

