-- ==== Sys2Proof/Laws/State.lean ====
section
/-! SUPPORT. Laws/State.lean: one lemma per field per update, each true by rfl. -/

namespace Sys2Proof.Machine

section Engine

variable {wi wo : Nat} (k : EngineState wi wo)

@[simp] theorem emit_run (v : BitVec wo) : (k.emit v).run = k.run := rfl
@[simp] theorem emit_len (v : BitVec wo) : (k.emit v).len = k.len := rfl
@[simp] theorem emit_pos (v : BitVec wo) : (k.emit v).pos = k.pos := rfl
@[simp] theorem emit_olen (v : BitVec wo) : (k.emit v).olen = k.olen + 1 := rfl
@[simp] theorem emit_ibuf (v : BitVec wo) : (k.emit v).ibuf = k.ibuf := rfl
@[simp] theorem emit_obuf (v : BitVec wo) : (k.emit v).obuf = k.obuf.write k.olen v := rfl

@[simp] theorem jump_run (t : Nat) : (k.jump t).run = k.run := rfl
@[simp] theorem jump_len (t : Nat) : (k.jump t).len = k.len := rfl
@[simp] theorem jump_pos (t : Nat) : (k.jump t).pos = t := rfl
@[simp] theorem jump_olen (t : Nat) : (k.jump t).olen = k.olen := rfl
@[simp] theorem jump_ibuf (t : Nat) : (k.jump t).ibuf = k.ibuf := rfl
@[simp] theorem jump_obuf (t : Nat) : (k.jump t).obuf = k.obuf := rfl

@[simp] theorem halt_run : k.halt.run = false := rfl
@[simp] theorem halt_len : k.halt.len = k.len := rfl
@[simp] theorem halt_pos : k.halt.pos = k.pos := rfl
@[simp] theorem halt_olen : k.halt.olen = k.olen := rfl
@[simp] theorem halt_ibuf : k.halt.ibuf = k.ibuf := rfl
@[simp] theorem halt_obuf : k.halt.obuf = k.obuf := rfl

@[simp] theorem begin_run : k.begin.run = true := rfl
@[simp] theorem begin_len : k.begin.len = k.len := rfl
@[simp] theorem begin_pos : k.begin.pos = 0 := rfl
@[simp] theorem begin_olen : k.begin.olen = 0 := rfl
@[simp] theorem begin_ibuf : k.begin.ibuf = k.ibuf := rfl
@[simp] theorem begin_obuf : k.begin.obuf = k.obuf := rfl

@[simp] theorem reset_run : (EngineState.reset : EngineState wi wo).run = false := rfl
@[simp] theorem reset_len : (EngineState.reset : EngineState wi wo).len = 0 := rfl
@[simp] theorem reset_pos : (EngineState.reset : EngineState wi wo).pos = 0 := rfl
@[simp] theorem reset_olen : (EngineState.reset : EngineState wi wo).olen = 0 := rfl
@[simp] theorem reset_ibuf : (EngineState.reset : EngineState wi wo).ibuf = [] := rfl
@[simp] theorem reset_obuf : (EngineState.reset : EngineState wi wo).obuf = [] := rfl

end Engine

section Block

variable (s : State)

@[simp] theorem withPk_cfg (k) : (s.withPk k).cfg = s.cfg := rfl
@[simp] theorem withPk_pk (k) : (s.withPk k).pk = k := rfl
@[simp] theorem withPk_up (k) : (s.withPk k).up = s.up := rfl
@[simp] theorem withPk_agenda (k) : (s.withPk k).agenda = s.agenda := rfl
@[simp] theorem withPk_reads (k) : (s.withPk k).reads = s.reads := rfl

@[simp] theorem withUp_cfg (k) : (s.withUp k).cfg = s.cfg := rfl
@[simp] theorem withUp_pk (k) : (s.withUp k).pk = s.pk := rfl
@[simp] theorem withUp_up (k) : (s.withUp k).up = k := rfl
@[simp] theorem withUp_agenda (k) : (s.withUp k).agenda = s.agenda := rfl
@[simp] theorem withUp_reads (k) : (s.withUp k).reads = s.reads := rfl

@[simp] theorem withAgenda_cfg (l) : (s.withAgenda l).cfg = s.cfg := rfl
@[simp] theorem withAgenda_pk (l) : (s.withAgenda l).pk = s.pk := rfl
@[simp] theorem withAgenda_up (l) : (s.withAgenda l).up = s.up := rfl
@[simp] theorem withAgenda_agenda (l) : (s.withAgenda l).agenda = l := rfl
@[simp] theorem withAgenda_reads (l) : (s.withAgenda l).reads = s.reads := rfl

@[simp] theorem returned_cfg (v) : (s.returned v).cfg = s.cfg := rfl
@[simp] theorem returned_pk (v) : (s.returned v).pk = s.pk := rfl
@[simp] theorem returned_up (v) : (s.returned v).up = s.up := rfl
@[simp] theorem returned_agenda (v) : (s.returned v).agenda = s.agenda := rfl
@[simp] theorem returned_reads (v) : (s.returned v).reads = v :: s.reads := rfl

@[simp] theorem resetBlock_cfg : s.resetBlock.cfg = s.cfg := rfl
@[simp] theorem resetBlock_pk : s.resetBlock.pk = EngineState.reset := rfl
@[simp] theorem resetBlock_up : s.resetBlock.up = EngineState.reset := rfl
@[simp] theorem resetBlock_agenda : s.resetBlock.agenda = s.agenda := rfl
@[simp] theorem resetBlock_reads : s.resetBlock.reads = s.reads := rfl

end Block

end Sys2Proof.Machine
end

