-- ==== Sys2Proof/Laws/Exec.lean ====
section
/-! SUPPORT. Laws/Exec.lean: for each shared operation and each meaning, one lemma that says when it completes and in
what state; later proofs cite these and do not unfold the meaning. -/

namespace Sys2Proof.Machine

section Ops

variable {wi wo : Nat} {e : Engine} {cap : Option Nat} {k k' : EngineState wi wo}

/-- Everything START can do (42_control.md R171, R172, R177). -/
theorem start_ok_iff : k.start e cap = .ok k' ↔
    (k.run = false ∧ withinCap cap k.len = true ∧ (k.ibuf.first k.len).isSome = true) ∧ k' = k.begin := by
  unfold EngineState.start EngineState.inputWritten
  cases k.run <;> cases withinCap cap k.len <;> cases (k.ibuf.first k.len).isSome <;> simp [eq_comm]

/-- Everything a write to `LEN` can do (R174). -/
theorem writeLen_ok_iff {v : Nat} : k.writeLen e cap v = .ok k' ↔
    (k.run = false ∧ withinCap cap v = true) ∧ k' = { k with len := v } := by
  unfold EngineState.writeLen
  cases k.run <;> cases withinCap cap v <;> simp [eq_comm]

/-- Everything a write to an input element can do (R175). -/
theorem writeInput_ok_iff {i v : Nat} : k.writeInput e cap i v = .ok k' ↔
    (k.run = false ∧ belowCap cap i = true ∧ v < 2 ^ wi) ∧
      k' = { k with ibuf := k.ibuf.write i (BitVec.ofNat wi v) } := by
  unfold EngineState.writeInput
  cases k.run <;> cases belowCap cap i <;> by_cases h : v < 2 ^ wi <;> simp [h, eq_comm]

/-- Everything a read of an input element can do (R175). -/
theorem readInput_ok_iff {i n : Nat} : k.readInput e cap i = .ok n ↔
    k.run = false ∧ belowCap cap i = true ∧ ∃ v, k.ibuf.read i = some v ∧ n = v.toNat := by
  unfold EngineState.readInput
  cases k.run <;> cases belowCap cap i <;> cases k.ibuf.read i <;> simp [eq_comm]

/-- Everything a read of an output element can do (R175). -/
theorem readOutput_ok_iff {j n : Nat} : k.readOutput e cap j = .ok n ↔
    k.run = false ∧ belowCap cap j = true ∧ j < k.olen ∧ ∃ v, k.obuf.read j = some v ∧ n = v.toNat := by
  unfold EngineState.readOutput
  cases k.run <;> cases belowCap cap j <;> cases k.obuf.read j <;> by_cases h : j < k.olen <;> simp [h, eq_comm]

end Ops

section Meanings

variable {s t : State}

/-- A meaning guarded by the condition that selects its step completes exactly under that condition. -/
theorem guarded_next_iff {c : Prop} [Decidable c] {a : State} {r : Refusal} :
    (if c then .next a else .refused r : Host.Outcome State Fault Refusal) = .next t ↔ c ∧ t = a := by
  by_cases h : c <;> simp [h, eq_comm]

theorem putPk_next_iff {x : Except Refusal (EngineState 8 16)} :
    s.putPk x = .next t ↔ ∃ k, x = .ok k ∧ t = s.withPk k := by
  cases x <;> simp [State.putPk, eq_comm]

theorem putUp_next_iff {x : Except Refusal (EngineState 16 8)} :
    s.putUp x = .next t ↔ ∃ k, x = .ok k ∧ t = s.withUp k := by
  cases x <;> simp [State.putUp, eq_comm]

theorem putRead_next_iff {x : Except Refusal Nat} : s.putRead x = .next t ↔ ∃ v, x = .ok v ∧ t = s.returned v := by
  cases x <;> simp [State.putRead, eq_comm]

/-- `PK.DIR` (40_packer.md R112). -/
theorem exec_pkDir_next_iff {b0 b1 : Byte} : exec (.pkDir b0 b1) s = .next t ↔
    (s.pk.run = true ∧ fetchPair s.pk = some (b0, b1) ∧ reserved b1 = false) ∧
      t = s.withPk ((s.pk.emit (pairWord b0 b1)).jump (min (s.pk.pos + 2) s.pk.len)) := by
  simp only [exec, execPkDir]; exact guarded_next_iff

/-- `PK.ESC` (R113). -/
theorem exec_pkEsc_next_iff {b0 b1 : Byte} : exec (.pkEsc b0 b1) s = .next t ↔
    (s.pk.run = true ∧ fetchPair s.pk = some (b0, b1) ∧ reserved b1 = true) ∧
      t = s.withPk (((s.pk.emit (escHi b0)).emit (escLo b1)).jump (s.pk.pos + 2)) := by
  simp only [exec, execPkEsc]; exact guarded_next_iff

/-- `PK.PAD` (R120). -/
theorem exec_pkPad_next_iff {b0 : Byte} : exec (.pkPad b0) s = .next t ↔
    (s.pk.run = true ∧ atOddTail s.pk = true ∧ s.pk.ibuf.read s.pk.pos = some b0) ∧
      t = s.withPk ((s.pk.emit (padUnit b0)).jump s.pk.len) := by
  simp only [exec, execPkPad]; exact guarded_next_iff

/-- `PK.HALT` (R114). -/
theorem exec_pkHalt_next_iff : exec .pkHalt s = .next t ↔
    (s.pk.run = true ∧ s.pk.pos = s.pk.len) ∧ t = s.withPk s.pk.halt := by
  simp only [exec, execPkHalt]; exact guarded_next_iff

/-- `PK.START` (42_control.md R171, R177). -/
theorem exec_pkStart_next_iff : exec .pkStart s = .next t ↔
    (s.pk.run = false ∧ withinCap s.cfg.pkCap s.pk.len = true ∧ (s.pk.ibuf.first s.pk.len).isSome = true) ∧
      t = s.withPk s.pk.begin := by
  simp only [exec, execPkStart, putPk_next_iff, start_ok_iff]
  constructor
  · rintro ⟨k, ⟨h, rfl⟩, rfl⟩; exact ⟨h, rfl⟩
  · rintro ⟨h, rfl⟩; exact ⟨_, ⟨h, rfl⟩, rfl⟩

/-- `UP.DIR` (41_unpacker.md R142). -/
theorem exec_upDir_next_iff {u : CodeUnit} : exec (.upDir u) s = .next t ↔
    (s.up.run = true ∧ fetchUnit s.up = some u ∧ reserved (high u) = false) ∧
      t = s.withUp (((s.up.emit (directBytes s.cfg.directOrder u).1).emit (directBytes s.cfg.directOrder u).2).jump
        (s.up.pos + 1)) := by
  simp only [exec, execUpDir]; exact guarded_next_iff

/-- `UP.HALF` (R143). -/
theorem exec_upHalf_next_iff {u : CodeUnit} : exec (.upHalf u) s = .next t ↔
    (s.up.run = true ∧ fetchUnit s.up = some u ∧ reserved (high u) = true) ∧
      t = s.withUp ((s.up.emit (low u)).jump (s.up.pos + 1)) := by
  simp only [exec, execUpHalf]; exact guarded_next_iff

/-- `UP.HALT` (R144). -/
theorem exec_upHalt_next_iff : exec .upHalt s = .next t ↔
    (s.up.run = true ∧ s.up.pos = s.up.len) ∧ t = s.withUp s.up.halt := by
  simp only [exec, execUpHalt]; exact guarded_next_iff

/-- `UP.START` (42_control.md R172, R177). -/
theorem exec_upStart_next_iff : exec .upStart s = .next t ↔
    (s.up.run = false ∧ withinCap s.cfg.upCap s.up.len = true ∧ (s.up.ibuf.first s.up.len).isSome = true) ∧
      t = s.withUp s.up.begin := by
  simp only [exec, execUpStart, putUp_next_iff, start_ok_iff]
  constructor
  · rintro ⟨k, ⟨h, rfl⟩, rfl⟩; exact ⟨h, rfl⟩
  · rintro ⟨h, rfl⟩; exact ⟨_, ⟨h, rfl⟩, rfl⟩

end Meanings

section Operands

/-- Everything a fetched pair can be (40_packer.md R111). -/
theorem fetchPair_some_iff {k : EngineState 8 16} {b0 b1 : Byte} : fetchPair k = some (b0, b1) ↔
    k.pos < k.len ∧ k.ibuf.read k.pos = some b0 ∧
      ((k.pos + 1 < k.len ∧ k.ibuf.read (k.pos + 1) = some b1) ∨ (k.pos + 1 = k.len ∧ b1 = padByte)) := by
  unfold fetchPair
  by_cases h : k.pos < k.len
  · rw [if_pos h]
    by_cases h1 : k.pos + 1 < k.len
    · cases k.ibuf.read k.pos <;> cases k.ibuf.read (k.pos + 1) <;> simp [h, h1, Nat.ne_of_lt h1]
    · have h2 : k.pos + 1 = k.len := by omega
      cases k.ibuf.read k.pos <;> simp [h, h2, eq_comm]
  · simp [h]

/-- Everything a fetched unit can be (41_unpacker.md R141). -/
theorem fetchUnit_some_iff {k : EngineState 16 8} {u : CodeUnit} : fetchUnit k = some u ↔
    k.pos < k.len ∧ k.ibuf.read k.pos = some u := by
  unfold fetchUnit
  by_cases h : k.pos < k.len <;> simp [h]

theorem atOddTail_iff (k : EngineState 8 16) : atOddTail k = true ↔ k.len % 2 = 1 ∧ k.pos + 1 = k.len := by
  simp [atOddTail]

end Operands

end Sys2Proof.Machine
end

