-- ==== Sys2Proof/Laws/PerInstr.lean ====
section
/-! SUPPORT. Laws/PerInstr.lean: the round trip of the encoding, one lemma per constructor. -/

namespace Sys2Proof.Laws.RoundTrip

open Sys2Proof.Machine

/-- The word of a well-formed instruction decodes to it. -/
def Statement (i : Instr) : Prop := i.wf = true → decode (encode i) = .ok i

theorem pkDir (b0 b1 : Byte) : Statement (.pkDir b0 b1) := by
  intro h
  have h' : reserved b1 = false := by simpa [Instr.wf] using h
  simp [encode, decode, decodePair, h']

theorem pkEsc (b0 b1 : Byte) : Statement (.pkEsc b0 b1) := by
  intro h
  have h' : reserved b1 = true := h
  simp [encode, decode, decodePair, h']

theorem pkPad (b0 : Byte) : Statement (.pkPad b0) := fun _ => by simp [encode, decode]

theorem pkHalt : Statement .pkHalt := fun _ => rfl

theorem pkStart : Statement .pkStart := fun _ => rfl

theorem upDir (u : CodeUnit) : Statement (.upDir u) := by
  intro h
  have h' : reserved (high u) = false := by simpa [Instr.wf] using h
  simp [encode, decode, decodeUnit, h']

theorem upHalf (u : CodeUnit) : Statement (.upHalf u) := by
  intro h
  have h' : reserved (high u) = true := h
  simp [encode, decode, decodeUnit, h']

theorem upHalt : Statement .upHalt := fun _ => rfl

theorem upStart : Statement .upStart := fun _ => rfl

end Sys2Proof.Laws.RoundTrip
end

