-- ==== Sys2Proof/Laws/Run.lean ====
section
/-! SUPPORT. Laws/Run.lean: several steps of the block, in terms of `step` and `State`. -/

namespace Sys2Proof.Machine

theorem run_zero (s : State) : core.run 0 s = .next s := rfl

/-- The first of several steps. -/
theorem run_step {n : Nat} {s t : State} (h : step s = .next t) : core.run (n + 1) s = core.run n t := by
  have hc : core.step s = .next t := h
  simp [Host.Core.run, hc]

/-- Steps after steps. -/
theorem run_add {a b : Nat} {s t : State} (h : core.run a s = .next t) : core.run (a + b) s = core.run b t := by
  induction a generalizing s with
  | zero => cases h; rw [Nat.zero_add]
  | succ a ih =>
    rw [Nat.succ_add]
    cases hs : step s with
    | next u => rw [run_step hs] at h ⊢; exact ih h
    | fault r => cases r
    | refused r =>
      have hc : core.step s = .refused r := hs
      simp [Host.Core.run, hc] at h

end Sys2Proof.Machine
end

