-- ==== Sys2Proof/Laws/Step.lean ====
section
/-! SUPPORT. Laws/Step.lean: everything one step of the block can do, said once. -/

namespace Sys2Proof.Machine

/-- The state in which the next event acts: the event is taken off the agenda. -/
abbrev State.popped (s : State) : State := s.withAgenda s.agenda.tail

theorem withAgenda_self (s : State) : s.withAgenda s.agenda = s := rfl

theorem popped_nil {s : State} (h : s.agenda = []) : s.popped = s := by
  rw [State.popped, h, List.tail_nil, ← h, withAgenda_self]

theorem step_nil {s : State} (h : s.agenda = []) : step s = runSilent s := by simp [step, h]

theorem step_cons {s : State} {ev : Event} {rest : List Event} (h : s.agenda = ev :: rest) :
    step s = runEvent ev (s.withAgenda rest) := by simp [step, h]

/-- What decoding a word and running it can do. -/
theorem runWord_next {s t : State} {iw : InstrWord} (h : runWord s iw = .next t) :
    (∃ i, decode iw = .ok i ∧ exec i s = .next t) ∨ (decode iw = .error .notACommand ∧ t = s) := by
  unfold runWord at h
  cases hd : decode iw with
  | ok i => rw [hd] at h; exact .inl ⟨i, rfl, h⟩
  | error r => cases r; rw [hd] at h; exact .inr ⟨rfl, by simpa using h.symm⟩

/-- An engine never fetches a word of format `CMD`. -/
theorem fetch_ne_ctrl {e e' : Engine} {s : State} {v : Nat} : fetch e s ≠ .ok (.ctrl e' v) := by
  intro hf
  cases e
  · simp only [fetch, fetchPk] at hf
    split at hf
    · cases hf
    · split at hf
      · cases hf
      · split at hf
        · cases hf
        · split at hf <;> cases hf
  · simp only [fetch, fetchUp] at hf
    split at hf
    · cases hf
    · split at hf
      · cases hf
      · split at hf <;> cases hf

/-- A word an engine fetches decodes to an instruction that is no command. -/
theorem decode_fetched {e : Engine} {s : State} {iw : InstrWord} (hf : fetch e s = .ok iw) :
    ∃ i, decode iw = .ok i ∧ i ≠ .pkStart ∧ i ≠ .upStart := by
  cases iw with
  | pair p => exact ⟨_, rfl, by unfold decodePair; split <;> simp⟩
  | tail p => exact ⟨_, rfl, by unfold decodeTail; split <;> [simp; split <;> simp]⟩
  | unit u => exact ⟨_, rfl, by unfold decodeUnit; split <;> simp⟩
  | atEnd e => cases e <;> exact ⟨_, rfl, by simp [decodeAtEnd]⟩
  | ctrl e' v => exact absurd hf fetch_ne_ctrl

/-- What an engine's move can do. -/
theorem engineStep_next {e : Engine} {s t : State} (h : engineStep e s = .next t) :
    (s.running e = true ∧ ∃ i, (i ≠ .pkStart ∧ i ≠ .upStart) ∧ exec i s = .next t) ∨ (s.running e = false ∧ t = s) := by
  unfold engineStep at h
  cases hr : s.running e with
  | false => rw [hr] at h; exact .inr ⟨rfl, by simpa using h.symm⟩
  | true =>
    rw [hr] at h
    simp only [if_true] at h
    split at h
    · rename_i iw hf
      obtain ⟨i, hd, hi⟩ := decode_fetched hf
      simp only [runWord, hd] at h
      exact .inl ⟨rfl, i, hi, h⟩
    · cases h

/-- The ways a step can change the block, `s0` being the state with the event taken off the agenda. -/
inductive StepCase (s s0 t : State) : Prop
  /-- An instruction of an engine, or a START the host writes. -/
  | instr (i : Instr) (run : exec i s0 = .next t)
      (command : i = .pkStart ∨ i = .upStart → ∃ ev rest, s.agenda = ev :: rest ∧ ev.isStart i.engine = true)
  /-- Nothing but the event taken. -/
  | idle (same : t = s0)
  /-- The reset event. -/
  | reset (rest : List Event) (ev : s.agenda = .reset :: rest) (same : t = s0.resetBlock)
  /-- The host writes `PK.LEN`. -/
  | pkLen (v : Nat) (atRest : s0.pk.run = false) (legal : withinCap s0.cfg.pkCap v = true)
      (same : t = s0.withPk { s0.pk with len := v }) (ev : ∃ rest, s.agenda = .host (.wrReg .pk .len v) :: rest)
  /-- The host writes `UP.LEN`. -/
  | upLen (v : Nat) (atRest : s0.up.run = false) (legal : withinCap s0.cfg.upCap v = true)
      (same : t = s0.withUp { s0.up with len := v }) (ev : ∃ rest, s.agenda = .host (.wrReg .up .len v) :: rest)
  /-- The host writes an element of `PK.IBUF`. -/
  | pkInput (i : Nat) (b : Byte) (atRest : s0.pk.run = false) (legal : belowCap s0.cfg.pkCap i = true)
      (same : t = s0.withPk { s0.pk with ibuf := s0.pk.ibuf.write i b })
  /-- The host writes an element of `UP.IBUF`. -/
  | upInput (i : Nat) (u : CodeUnit) (atRest : s0.up.run = false) (legal : belowCap s0.cfg.upCap i = true)
      (same : t = s0.withUp { s0.up with ibuf := s0.up.ibuf.write i u })
  /-- The host reads. -/
  | read (v : Nat) (same : t = s0.returned v)

theorem hostAct_cases {s t : State} {a : HostAction} {rest : List Event} (hag : s.agenda = .host a :: rest)
    (h : hostAct a s.popped = .next t) : StepCase s s.popped t := by
  cases a with
  | rdReg e r => exact .read _ (by simpa [hostAct] using h.symm)
  | wrReg e r v =>
    cases r with
    | ctrl =>
      rcases runWord_next h with ⟨i, hd, hx⟩ | ⟨-, rfl⟩
      · refine .instr i hx fun _ => ⟨_, _, hag, ?_⟩
        simp only [decode, decodeCtrl] at hd
        split at hd
        · cases e <;> cases hd <;> simp [Event.isStart, Instr.engine, *]
        · cases hd
      · exact .idle rfl
    | len =>
      cases e with
      | pk =>
        obtain ⟨k, hk, rfl⟩ := putPk_next_iff.1 h
        obtain ⟨⟨hr, hc⟩, rfl⟩ := writeLen_ok_iff.1 hk
        exact .pkLen v hr hc rfl ⟨_, hag⟩
      | up =>
        obtain ⟨k, hk, rfl⟩ := putUp_next_iff.1 h
        obtain ⟨⟨hr, hc⟩, rfl⟩ := writeLen_ok_iff.1 hk
        exact .upLen v hr hc rfl ⟨_, hag⟩
    | status => exact .idle (by simpa [hostAct, hostWriteReg] using h.symm)
    | pos => exact .idle (by simpa [hostAct, hostWriteReg] using h.symm)
    | olen => exact .idle (by simpa [hostAct, hostWriteReg] using h.symm)
  | rdBuf e b i =>
    cases e <;> cases b <;> exact (putRead_next_iff.1 h).elim fun v hv => .read v hv.2
  | wrBuf e b i v =>
    cases e <;> cases b
    · obtain ⟨k, hk, rfl⟩ := putPk_next_iff.1 h
      obtain ⟨⟨hr, hc, -⟩, rfl⟩ := writeInput_ok_iff.1 hk
      exact .pkInput i _ hr hc rfl
    · simp [hostAct, hostWriteBuf] at h
    · obtain ⟨k, hk, rfl⟩ := putUp_next_iff.1 h
      obtain ⟨⟨hr, hc, -⟩, rfl⟩ := writeInput_ok_iff.1 hk
      exact .upInput i _ hr hc rfl
    · simp [hostAct, hostWriteBuf] at h

theorem engineStep_cases {s s0 t : State} {e : Engine} (h : engineStep e s0 = .next t) : StepCase s s0 t := by
  rcases engineStep_next h with ⟨-, i, hi, hx⟩ | ⟨-, rfl⟩
  · exact .instr i hx fun hc => absurd hc (by simp [hi])
  · exact .idle rfl

/-- Everything a step can do. -/
theorem step_cases {s t : State} (h : step s = .next t) : StepCase s s.popped t := by
  cases hag : s.agenda with
  | nil =>
    rw [step_nil hag] at h
    rw [popped_nil hag]
    unfold runSilent at h
    split at h <;> exact engineStep_cases h
  | cons ev rest =>
    have hp : s.popped = s.withAgenda rest := by rw [State.popped, hag, List.tail_cons]
    rw [step_cons hag, ← hp] at h
    cases ev with
    | engine e => exact engineStep_cases h
    | host a => exact hostAct_cases hag h
    | reset => exact .reset rest hag (by simpa [runEvent] using h.symm)

end Sys2Proof.Machine
end

