-- ==== Sys2Proof/Tests/Slice0.lean ====
section
/-! SUPPORT. Tests/Slice0.lean: checks of our own, their expected values taken from the spec's encodings and from
95_test_vectors.md, and for every statement with hypotheses a state that meets them. -/

namespace Sys2Proof.Tests

open Sys2Proof.Machine

/-! ## States to test on -/

/-- A block whose Packer is as given and whose Unpacker is as after reset. -/
def pkState (run : Bool) (len pos olen : Nat) (ibuf : Memory 8) (obuf : Memory 16) (agenda : List Event) : State :=
  { State.reset with pk := ⟨run, len, pos, olen, ibuf, obuf⟩, agenda := agenda }

/-- A block whose Unpacker is as given and whose Packer is as after reset. -/
def upState (run : Bool) (len pos olen : Nat) (ibuf : Memory 16) (obuf : Memory 8) (agenda : List Event) : State :=
  { State.reset with up := ⟨run, len, pos, olen, ibuf, obuf⟩, agenda := agenda }

/-- The parameters with bounded buffers, `LENW = 4`, and an order of direct bytes. -/
def small (o : DirectOrder) : Config := { Config.standard with directOrder := o, pkCap := some 5, upCap := some 4, lenw := some 4 }

/-- Program P1's input (95_test_vectors.md). -/
def p1In : Memory 8 := [(0, 0x48#8), (1, 0x65#8), (2, 0x6C#8), (3, 0xDB#8), (4, 0x6F#8)]

/-- Program P2's input. -/
def p2In : Memory 16 := [(0, 0x6548#16), (1, 0xD86C#16), (2, 0xDCDB#16), (3, 0x006F#16)]

/-- P1 just after START. -/
def p1Start : State := pkState true 5 0 0 p1In [] []
/-- P1 after `PK.DIR`. -/
def p1Dir : State := pkState true 5 2 1 p1In [(0, 0x6548#16)] []
/-- P1 after `PK.ESC`. -/
def p1Esc : State := pkState true 5 4 3 p1In [(0, 0x6548#16), (1, 0xD86C#16), (2, 0xDCDB#16)] []
/-- P1 after `PK.PAD`. -/
def p1Pad : State := pkState true 5 5 4 p1In [(0, 0x6548#16), (1, 0xD86C#16), (2, 0xDCDB#16), (3, 0x006F#16)] []
/-- The end of P1, and the same at rest with an event to come. -/
def p1End (agenda : List Event) : State :=
  pkState false 5 5 4 p1In [(0, 0x6548#16), (1, 0xD86C#16), (2, 0xDCDB#16), (3, 0x006F#16)] agenda
/-- P2 just after START. -/
def p2Start : State := upState true 4 0 0 p2In [] []
/-- P2 after `UP.DIR`. -/
def p2Dir : State := upState true 4 1 2 p2In [(0, 0x48#8), (1, 0x65#8)] []
/-- P2 before `UP.HALT`. -/
def p2Last : State :=
  upState true 4 4 6 p2In [(0, 0x48#8), (1, 0x65#8), (2, 0x6C#8), (3, 0xDB#8), (4, 0x6F#8), (5, 0x00#8)] []
/-- The end of P2, and the same at rest with an event to come. -/
def p2End (agenda : List Event) : State :=
  upState false 4 4 6 p2In [(0, 0x48#8), (1, 0x65#8), (2, 0x6C#8), (3, 0xDB#8), (4, 0x6F#8), (5, 0x00#8)] agenda

/-! ## Well-formedness: an ill-formed term for each check -/

theorem test_wf_refuses_reserved_pkDir : (Instr.pkDir 0x41#8 0xD8#8).wf = false := by decide
theorem test_wf_refuses_direct_pkEsc : (Instr.pkEsc 0xD8#8 0x41#8).wf = false := by decide
theorem test_wf_refuses_reserved_upDir : (Instr.upDir 0xDFFF#16).wf = false := by decide
theorem test_wf_refuses_direct_upHalf : (Instr.upHalf 0xE000#16).wf = false := by decide

/-! ## Decoding: words written bit by bit from R81, R83, R88 (P1, P2 and the cubes' edges) -/

theorem test_decode_pkDir : decode (.pair 0b01100101_01001000#16) = .ok (.pkDir 0x48#8 0x65#8) := by decide
theorem test_decode_pkDir_below : decode (.pair 0b11010111_00010010#16) = .ok (.pkDir 0x12#8 0xD7#8) := by decide
theorem test_decode_pkEsc : decode (.pair 0b11011011_01101100#16) = .ok (.pkEsc 0x6C#8 0xDB#8) := by decide
theorem test_decode_pkEsc_top : decode (.pair 0b11011111_00010010#16) = .ok (.pkEsc 0x12#8 0xDF#8) := by decide
theorem test_decode_pkPad : decode (.tail 0b00000000_11011001#16) = .ok (.pkPad 0xD9#8) := by decide
theorem test_decode_pkHalt : decode (.atEnd .pk) = .ok .pkHalt := by decide
theorem test_decode_pkStart : decode (.ctrl .pk 0b101) = .ok .pkStart := by decide
theorem test_decode_upDir : decode (.unit 0b11100000_00000000#16) = .ok (.upDir 0xE000#16) := by decide
theorem test_decode_upHalf : decode (.unit 0b11011001_01000001#16) = .ok (.upHalf 0xD941#16) := by decide
theorem test_decode_upHalt : decode (.atEnd .up) = .ok .upHalt := by decide
theorem test_decode_upStart : decode (.ctrl .up 1) = .ok .upStart := by decide
theorem test_decode_no_command : decode (.ctrl .pk 0b110) = .error .notACommand := by decide
theorem test_table_word_pair : decodeTableWord 16 0xDB6C = some (.pkEsc 0x6C#8 0xDB#8) := by decide
theorem test_table_word_unit : decodeTableWord 24 0x1DB6C = some (.upHalf 0xDB6C#16) := by decide
/-- 95_test_vectors.md P1: the pair word of the odd tail is `0x006F`, classified as any pair word is. -/
theorem test_fetch_tail : fetch .pk p1Esc = .ok (.tail 0x006F#16) := rfl
theorem test_decode_tail_esc : decode (.tail 0b11011011_01101100#16) = .ok (.pkEsc 0x6C#8 0xDB#8) := by decide
theorem test_table_word_tail : decodeTableWord 8 0x6F = some (.pkPad 0x6F#8) := by decide

/-! ## Steps: the rows of P1 and P2 -/

theorem test_step_pkDir : step p1Start = .next p1Dir := rfl
theorem test_step_pkEsc : step p1Dir = .next p1Esc := rfl
theorem test_step_pkPad : step p1Esc = .next p1Pad := rfl
theorem test_step_pkHalt : step p1Pad = .next (p1End []) := rfl
theorem test_exec_pkPad_is_pkDir : exec (.pkDir 0x6F#8 0x00#8) p1Esc = exec (.pkPad 0x6F#8) p1Esc := rfl
/-- V14: both bytes reserved-valued. -/
theorem test_exec_pkEsc_both : exec (.pkEsc 0xD8#8 0xD8#8) (pkState true 2 0 0 [(0, 0xD8#8), (1, 0xD8#8)] [] []) =
    .next (pkState true 2 2 2 [(0, 0xD8#8), (1, 0xD8#8)] [(0, 0xD8D8#16), (1, 0xDCD8#16)] []) := rfl
/-- K3: START again after P1; stale output stays in storage. -/
theorem test_exec_pkStart : exec .pkStart (p1End []) = .next (pkState true 5 0 0 p1In (p1End []).pk.obuf []) := rfl
/-- X2: START with an element never written. -/
theorem test_exec_pkStart_unwritten : exec .pkStart (pkState false 1 0 0 [] [] []) = .refused (.inputNotWritten .pk) := rfl
/-- X1: START while running. -/
theorem test_start_while_running :
    step { p1Dir with agenda := [.host (.wrReg .pk .ctrl 1)] } = .refused (.startWhileRunning .pk) := rfl
theorem test_step_upDir : step p2Start = .next p2Dir := rfl
/-- P2's `HIGH_FIRST` column. -/
theorem test_exec_upDir_high : exec (.upDir 0x6548#16) { p2Start with cfg := small .highFirst } =
    .next { upState true 4 1 2 p2In [(0, 0x65#8), (1, 0x48#8)] [] with cfg := small .highFirst } := rfl
theorem test_step_upHalf : step p2Dir = .next (upState true 4 2 3 p2In [(0, 0x48#8), (1, 0x65#8), (2, 0x6C#8)] []) := rfl
/-- U1: a reserved high byte the Packer never emits. -/
theorem test_exec_upHalf_D9 : exec (.upHalf 0xD941#16) (upState true 1 0 0 [(0, 0xD941#16)] [] []) =
    .next (upState true 1 1 1 [(0, 0xD941#16)] [(0, 0x41#8)] []) := rfl
theorem test_step_upHalt : step p2Last = .next (p2End []) := rfl
theorem test_exec_upStart : exec .upStart State.reset = .next (upState true 0 0 0 [] [] []) := rfl
/-- K2: START straight after reset, then HALT. -/
theorem test_empty_run : core.run 2 { State.reset with agenda := [.host (.wrReg .pk .ctrl 1)] } = .next State.reset := rfl

/-! ## The host's accesses: K4 to K7, X3 to X7 -/

theorem test_wr_ctrl_zero : step (p1End [.host (.wrReg .pk .ctrl 2)]) = .next (p1End []) := rfl
theorem test_rd_ctrl : step (p1End [.host (.rdReg .pk .ctrl)]) = .next { p1End [] with reads := [0] } := rfl
theorem test_wr_olen_ignored : step (p1End [.host (.wrReg .pk .olen 9)]) = .next (p1End []) := rfl
theorem test_rd_status_running :
    step { p1Dir with agenda := [.host (.rdReg .pk .status)] } = .next { p1Dir with reads := [1] } := rfl
theorem test_wr_len_above :
    step { p1End [.host (.wrReg .pk .len 6)] with cfg := small .lowFirst } = .refused (.lenAboveCapacity .pk) := rfl
theorem test_wr_len_at_cap : step { p1End [.host (.wrReg .pk .len 5)] with cfg := small .lowFirst } =
    .next { p1End [] with cfg := small .lowFirst } := rfl
theorem test_wr_ibuf_running : step { p1Dir with agenda := [.host (.wrBuf .pk .ibuf 0 0)] } =
    .refused (.bufferAccessWhileRunning .pk) := rfl
theorem test_rd_obuf_running : step { p1Dir with agenda := [.host (.rdBuf .pk .obuf 0)] } =
    .refused (.bufferAccessWhileRunning .pk) := rfl
theorem test_rd_obuf_past : step (p1End [.host (.rdBuf .pk .obuf 4)]) = .refused (.outputReadPastOlen .pk) := rfl
theorem test_rd_obuf_last : step (p1End [.host (.rdBuf .pk .obuf 3)]) = .next { p1End [] with reads := [0x006F] } := rfl
theorem test_wr_up_len_running : step { p2Dir with agenda := [.host (.wrReg .up .len 2)] } =
    .refused (.lenWriteWhileRunning .up) := rfl
theorem test_wr_up_ibuf : step (p1End [.host (.wrBuf .up .ibuf 0 0x41)]) =
    .next { p1End [] with up := ⟨false, 0, 0, 0, [(0, 0x0041#16)], []⟩ } := rfl
/-- The loading of a word is what the host's writes and START do (R253). -/
theorem test_load_is_the_hosts_writes : core.run 4 { State.reset with agenda := [.host (.wrBuf .pk .ibuf 0 0x6C),
    .host (.wrBuf .pk .ibuf 1 0xDB), .host (.wrReg .pk .len 2), .host (.wrReg .pk .ctrl 1)] } =
    .next (State.reset.withFetchWord 16 0xDB6C) := rfl

/-! ## The functions: the spec's vectors S1 to S5, V16, V17, U6, U10 -/

theorem test_pack_S : pack [] = [] ∧ pack [0x41#8, 0x00#8] = [0x0041#16] ∧
    pack [0x41#8, 0xD9#8] = [0xD841#16, 0xDCD9#16] ∧ pack [0x7F#8] = [0x007F#16] := by decide
theorem test_pack_V16 : pack [0x10#8, 0xDA#8, 0x20#8, 0xDB#8] = [0xD810#16, 0xDCDA#16, 0xD820#16, 0xDCDB#16] := by decide
theorem test_pack_V17 : pack [0x01#8, 0xD8#8, 0x02#8, 0xDC#8, 0x03#8] =
    [0xD801#16, 0xDCD8#16, 0xD802#16, 0xDCDC#16, 0x0003#16] := by decide
theorem test_unpack_U6 : unpack .lowFirst [0xDF00#16, 0x0041#16] = [0x00#8, 0x41#8, 0x00#8] ∧
    unpack .highFirst [0xDF00#16, 0x0041#16] = [0x00#8, 0x00#8, 0x41#8] := by decide
theorem test_unpack_U10 : unpack .lowFirst [0xD800#16, 0xDBFF#16, 0xDC00#16, 0xDFFF#16] =
    [0x00#8, 0xFF#8, 0x00#8, 0xFF#8] := by decide

/-! ## Witnesses: every statement's hypotheses are met by a concrete state and operands -/

theorem p1Start_inv : BlockInv p1Start := by constructor <;> constructor <;> decide
theorem p1Esc_inv : BlockInv p1Esc := by constructor <;> constructor <;> decide
theorem p1End_nil_inv : BlockInv (p1End []) := by constructor <;> constructor <;> decide
theorem p1End_inv (l : List Event) : BlockInv (p1End l) := ⟨p1End_nil_inv.pk, p1End_nil_inv.up⟩
theorem p2Dir_inv : BlockInv p2Dir := by constructor <;> constructor <;> decide
theorem p2End_nil_inv : BlockInv (p2End []) := by constructor <;> constructor <;> decide
theorem p2End_inv (l : List Event) : BlockInv (p2End l) := ⟨p2End_nil_inv.pk, p2End_nil_inv.up⟩

theorem witness_ResetPutsBothEnginesAtRest :
    ({ p1Dir with agenda := [.reset, .engine .pk] } : State).agenda = .reset :: [.engine .pk] := rfl
theorem witness_StepKeepsInvariant : BlockInv p1Esc ∧ step p1Esc = .next p1Pad := ⟨p1Esc_inv, rfl⟩
theorem witness_PositionInvariants_kept : step p1Esc = .next p1Pad ∧ PackerPosition p1Esc.pk ∧ p1Esc.agenda = [] ∧
    step p2Start = .next p2Dir ∧ UnpackerPosition p2Start.up :=
  ⟨rfl, ⟨by decide, .inl rfl⟩, rfl, rfl, Nat.zero_le _⟩
/-- A write of any length after P1 (`POS = 5`) and P2 (`POS = 4`), so of lengths below, at and above the position. -/
theorem witness_PositionInvariants_lenWrite : ∀ v : Nat,
    step (p1End [.host (.wrReg .pk .len v)]) = .next { p1End [] with pk := { (p1End []).pk with len := v } } ∧
    step (p2End [.host (.wrReg .up .len v)]) = .next { p2End [] with up := { (p2End []).up with len := v } } :=
  fun _ => ⟨rfl, rfl⟩
theorem witness_PositionInvariants_start : (step (p1End [.host (.wrReg .pk .ctrl 1)]) =
    .next (pkState true 5 0 0 p1In (p1End []).pk.obuf []) ∧ Event.isStart .pk (.host (.wrReg .pk .ctrl 1)) = true) ∧
    (∃ t, step (p2End [.host (.wrReg .up .ctrl 1)]) = .next t) ∧ Event.isStart .up (.host (.wrReg .up .ctrl 1)) = true :=
  ⟨⟨rfl, rfl⟩, ⟨_, rfl⟩, rfl⟩
theorem witness_CountersFitLenwBits : BlockInv { p1Start with cfg := small .lowFirst } ∧
    ({ p1Start with cfg := small .lowFirst } : State).cfg.Legal ∧ (small .lowFirst).lenw = some 4 ∧
    step { p1Start with cfg := small .lowFirst } = .next { p1Dir with cfg := small .lowFirst } := by
  refine ⟨?_, ?_, rfl, rfl⟩
  · constructor <;> constructor <;> decide
  · intro w hw
    cases hw
    exact ⟨⟨5, rfl, by decide⟩, ⟨4, rfl, by decide⟩⟩
theorem witness_OperandsAreTheInputAtPos :
    (p1Dir.pk.pos + 1 < p1Dir.pk.len ∧ p1Dir.pk.ibuf.read 2 = some 0x6C#8 ∧ p1Dir.pk.ibuf.read 3 = some 0xDB#8) ∧
    (p1Esc.pk.pos + 1 = p1Esc.pk.len ∧ p1Esc.pk.ibuf.read 4 = some 0x6F#8) ∧
    (p2Dir.up.pos < p2Dir.up.len ∧ p2Dir.up.ibuf.read 1 = some 0xD86C#16) := by decide
theorem witness_PkDirPacksPairIntoOneUnit :
    p1Start.pk.run = true ∧ fetchPair p1Start.pk = some (0x48#8, 0x65#8) ∧ reserved 0x65#8 = false := by decide
theorem witness_PkEscPacksPairIntoTwoUnits :
    p1Dir.pk.run = true ∧ fetchPair p1Dir.pk = some (0x6C#8, 0xDB#8) ∧ reserved 0xDB#8 = true := by decide
theorem witness_PkPadPacksTheOddTail : p1Esc.pk.run = true ∧ p1Esc.pk.len % 2 = 1 ∧ p1Esc.pk.pos + 1 = p1Esc.pk.len ∧
    p1Esc.pk.ibuf.read p1Esc.pk.pos = some 0x6F#8 := by decide
theorem witness_PkPad_oddBuffer : ([0xD9#8] : List Byte).length % 2 = 1 := rfl
theorem witness_PkHaltEndsTheOperation : p1Pad.pk.run = true ∧ p1Pad.pk.pos = p1Pad.pk.len := by decide
theorem witness_PkHalt_invariant : BlockInv p1Pad := by constructor <;> constructor <;> decide
theorem witness_PkHalt_others : Instr.engine (.pkPad 0x41#8) = .pk ∧ Instr.pkPad 0x41#8 ≠ .pkStart := by decide
theorem witness_StartLegal_pk : StartLegal (p1End []).cfg.pkCap (p1End []).pk := by
  refine ⟨rfl, fun _ h => (nomatch h), fun i hi => ?_⟩
  have : i < 5 := hi
  match i with
  | 0 => exact ⟨_, rfl⟩
  | 1 => exact ⟨_, rfl⟩
  | 2 => exact ⟨_, rfl⟩
  | 3 => exact ⟨_, rfl⟩
  | 4 => exact ⟨_, rfl⟩
theorem witness_UpDirUnpacksUnitIntoTwoBytes : p2Start.up.run = true ∧ fetchUnit p2Start.up = some 0x6548#16 ∧
    reserved (high 0x6548#16) = false ∧ p2Start.cfg.directOrder = .lowFirst ∧
    ({ p2Start with cfg := small .highFirst } : State).cfg.directOrder = .highFirst := by decide
theorem witness_UpHalfUnpacksUnitIntoOneByte :
    p2Dir.up.run = true ∧ fetchUnit p2Dir.up = some 0xD86C#16 ∧ reserved (high 0xD86C#16) = true := by decide
theorem witness_UpHaltEndsTheOperation : p2Last.up.run = true ∧ p2Last.up.pos = p2Last.up.len := by decide
theorem witness_UpHalt_invariant : BlockInv p2Last := by constructor <;> constructor <;> decide
theorem witness_UpHalt_others : Instr.engine (.upHalf 0xD841#16) = .up ∧ Instr.upHalf 0xD841#16 ≠ .upStart := by decide
theorem witness_StartLegal_up : StartLegal (p2End []).cfg.upCap (p2End []).up := by
  refine ⟨rfl, fun _ h => (nomatch h), fun i hi => ?_⟩
  have : i < 4 := hi
  match i with
  | 0 => exact ⟨_, rfl⟩
  | 1 => exact ⟨_, rfl⟩
  | 2 => exact ⟨_, rfl⟩
  | 3 => exact ⟨_, rfl⟩
theorem witness_EngineHasOneOutcome : exec (.pkPad 0x6F#8) p1Esc = .next p1Pad ∧ exec (.pkDir 0x6F#8 0x00#8) p1Esc = .next p1Pad :=
  ⟨rfl, rfl⟩
theorem witness_EngineAtRestHasNoStep :
    ((p1End []).running (Instr.pkDir 0x48#8 0x65#8).engine = false ∧ Instr.pkDir 0x48#8 0x65#8 ≠ .pkStart) ∧
    ((p1End [.engine .pk]).running .pk = false ∧ (p1End [.engine .pk]).agenda = .engine .pk :: []) ∧
    ((p1End []).pk.run = false ∧ (p1End []).up.run = false ∧ (p1End []).agenda = []) := by decide
theorem witness_PackerDispatch :
    (p1End [.engine .pk]).pk.run = false ∧ (p1Pad.pk.run = true ∧ p1Pad.pk.pos = p1Pad.pk.len) ∧
    fetchPair (pkState true 2 0 0 [(0, 0x12#8), (1, 0xD8#8)] [] [.engine .pk]).pk = some (0x12#8, 0xD8#8) ∧
    fetchPair (pkState true 2 0 0 [(0, 0x12#8), (1, 0xDF#8)] [] [.engine .pk]).pk = some (0x12#8, 0xDF#8) ∧
    fetchPair (pkState true 2 0 0 [(0, 0x12#8), (1, 0xD7#8)] [] [.engine .pk]).pk = some (0x12#8, 0xD7#8) ∧
    fetchPair (pkState true 2 0 0 [(0, 0x12#8), (1, 0xE0#8)] [] [.engine .pk]).pk = some (0x12#8, 0xE0#8) := by decide
theorem witness_UnpackerDispatch :
    (p2End [.engine .up]).up.run = false ∧ (p2Last.up.run = true ∧ p2Last.up.pos = p2Last.up.len) ∧
    fetchUnit (upState true 1 0 0 [(0, 0xD800#16)] [] [.engine .up]).up = some 0xD800#16 ∧
    fetchUnit (upState true 1 0 0 [(0, 0xDFFF#16)] [] [.engine .up]).up = some 0xDFFF#16 ∧
    fetchUnit (upState true 1 0 0 [(0, 0xD7FF#16)] [] [.engine .up]).up = some 0xD7FF#16 ∧
    fetchUnit (upState true 1 0 0 [(0, 0xE000#16)] [] [.engine .up]).up = some 0xE000#16 := by decide
theorem witness_StepRunsTheDecodedInstruction :
    (p1Dir.running .pk = true ∧ fetch .pk p1Dir = .ok (.pair 0xDB6C#16) ∧
      decode (.pair 0xDB6C#16) = .ok (.pkEsc 0x6C#8 0xDB#8) ∧ p1Dir.agenda = []) ∧
    (p2Dir.running .up = true ∧ fetch .up p2Dir = .ok (.unit 0xD86C#16) ∧
      decode (.unit 0xD86C#16) = .ok (.upHalf 0xD86C#16) ∧ p2Dir.agenda = [] ∧ p2Dir.pk.run = false) ∧
    (({ p2Dir with agenda := [.engine .up] } : State).running .up = true ∧
      fetch .up { p2Dir with agenda := [.engine .up] } = .ok (.unit 0xD86C#16)) := ⟨⟨rfl, rfl, rfl, rfl⟩, ⟨rfl, rfl, rfl, rfl, rfl⟩, rfl, rfl⟩
theorem witness_EngineMovesAlwaysComplete : BlockInv p1Esc ∧ p1Esc.agenda = [] ∧
    BlockInv (p1End [.engine .up]) ∧ (p1End [.engine .up]).agenda = .engine .up :: [] :=
  ⟨p1Esc_inv, rfl, p1End_inv _, rfl⟩
theorem witness_RegisterRead : (p1End [.host (.rdReg .pk .pos)]).agenda = .host (.rdReg .pk .pos) :: [] := rfl
theorem witness_RegisterWrite :
    (p1End [.host (.wrReg .pk .len 5)]).pk.run = false ∧ (∀ c, (small .lowFirst).pkCap = some c → 5 ≤ c) ∧
    (∃ c, (small .lowFirst).pkCap = some c ∧ c < 6) ∧ (∀ c, (small .lowFirst).upCap = some c → 4 ≤ c) ∧
    (∃ c, (small .lowFirst).upCap = some c ∧ c < 5) ∧ p1Dir.running .pk = true ∧ 2 % 2 = 0 ∧ 3 % 2 = 1 := by
  refine ⟨rfl, fun c h => ?_, ⟨5, rfl, by decide⟩, fun c h => ?_, ⟨4, rfl, by decide⟩, rfl, rfl, rfl⟩
  · cases h; decide
  · cases h; decide
theorem witness_InputWriteStoresOneElement :
    ((p1End [.host (.wrBuf .pk .ibuf 4 255)]).pk.run = false ∧ (∀ c, (small .lowFirst).pkCap = some c → 4 < c) ∧ 255 < 2 ^ 8) ∧
    ((p2End [.host (.wrBuf .up .ibuf 3 65535)]).up.run = false ∧ (∀ c, (small .lowFirst).upCap = some c → 3 < c) ∧
      65535 < 2 ^ 16) := by
  refine ⟨⟨rfl, fun c h => ?_, by decide⟩, rfl, fun c h => ?_, by decide⟩
  · cases h; decide
  · cases h; decide
theorem witness_BufferReadReturnsTheElement :
    ((p1End [.host (.rdBuf .pk .ibuf 4)]).pk.run = false ∧ (p1End []).pk.ibuf.read 4 = some 0x6F#8) ∧
    (3 < (p1End []).pk.olen ∧ (p1End []).pk.obuf.read 3 = some 0x006F#16) ∧
    ((p2End [.host (.rdBuf .up .ibuf 3)]).up.run = false ∧ (p2End []).up.ibuf.read 3 = some 0x006F#16) ∧
    (5 < (p2End []).up.olen ∧ (p2End []).up.obuf.read 5 = some 0x00#8) ∧
    (∀ c, (small .lowFirst).pkCap = some c → 4 < c) ∧ (∀ c, (small .lowFirst).upCap = some c → 5 < 2 * c) := by
  refine ⟨by decide, by decide, by decide, by decide, fun c h => ?_, fun c h => ?_⟩
  · cases h; decide
  · cases h; decide
theorem witness_HostActionRefusedExactlyOnBreach :
    BlockInv (p1End [.host (.rdBuf .pk .obuf 4)]) ∧ Breach (p1End [.host (.rdBuf .pk .obuf 4)]) (.rdBuf .pk .obuf 4) ∧
    ¬ Breach (p1End [.host (.rdBuf .pk .obuf 3)]) (.rdBuf .pk .obuf 3) := by
  refine ⟨p1End_inv _, .inr (.inr (by decide)), ?_⟩
  rintro (h | ⟨_, h, _⟩ | h)
  · cases h
  · cases h
  · exact absurd h (by decide)
theorem witness_OutputStaysUntilNextStart : step (p1End [.host (.wrReg .pk .len 2)]) =
    .next { p1End [] with pk := { (p1End []).pk with len := 2 } } ∧ (p1End []).pk.run = false ∧ (p1End []).up.run = false ∧
    Event.isStart .pk (.host (.wrReg .pk .len 2)) = false ∧ Event.isStart .up (.host (.wrReg .pk .len 2)) = false :=
  ⟨rfl, rfl, rfl, rfl, rfl⟩
theorem witness_DecodeOfEncode : (Instr.upHalf 0xDFFF#16).wf = true ∧ (Instr.pkDir 0xFF#8 0xD7#8).wf = true := by decide
theorem witness_OperandWords :
    (p1Start.pk.pos + 1 < p1Start.pk.len ∧ p1Start.pk.ibuf.read 0 = some 0x48#8 ∧ p1Start.pk.ibuf.read 1 = some 0x65#8) ∧
    (p1Esc.pk.pos + 1 = p1Esc.pk.len ∧ p1Esc.pk.len % 2 = 1 ∧ p1Esc.pk.ibuf.read p1Esc.pk.pos = some 0x6F#8) ∧
    (p2Dir.up.pos < p2Dir.up.len ∧ p2Dir.up.ibuf.read p2Dir.up.pos = some 0xD86C#16) ∧
    ((0xD800#16).toNat / 2048 = 0b11011 ∧ (0xDFFF#16).toNat / 2048 = 0b11011) ∧
    ((0x00FF#16).toNat / 2048 ≠ 0b11011 ∧ (0x00FF#16).toNat < 256) ∧
    ((0x0100#16).toNat / 2048 ≠ 0b11011 ∧ 256 ≤ (0x0100#16).toNat) := by decide
theorem witness_SixCubes : 0xDFFF#16 &&& 0xF800#16 = 0xD800#16 ∧ 0xE000#16 &&& 0xF800#16 ≠ 0xD800#16 := by decide
theorem witness_PlacedTableWord : decodeTableWord 16 0xD7FF = some (.pkDir 0xFF#8 0xD7#8) ∧
    decodeTableWord 24 0x1D800 = some (.upHalf 0xD800#16) := by decide
theorem witness_ParametersNeverChange : step p2Dir = .next (upState true 4 2 3 p2In [(0, 0x48#8), (1, 0x65#8), (2, 0x6C#8)] []) := rfl
theorem witness_InputIsFixedDuringARun : step p1Dir = .next p1Esc ∧ (∀ rest, p1Dir.agenda ≠ .reset :: rest) ∧
    p1Dir.pk.run = true ∧ p2Start.up.run = true ∧ step p2Start = .next p2Dir :=
  ⟨rfl, fun _ h => (nomatch h), rfl, rfl, rfl⟩
theorem witness_RunChanges : step (p1End [.host (.wrReg .pk .ctrl 1)]) = .next (pkState true 5 0 0 p1In (p1End []).pk.obuf []) ∧
    (step p1Pad = .next (p1End []) ∧ p1Pad.pk.run = true) ∧ (step p2Last = .next (p2End []) ∧ p2Last.up.run = true) :=
  ⟨rfl, ⟨rfl, rfl⟩, rfl, rfl⟩
theorem witness_PositionNeverDecreases : step p1Esc = .next p1Pad ∧ p1Esc.pk.run = true ∧ p1Pad.pk.run = true ∧
    step p2Start = .next p2Dir ∧ p2Start.up.run = true ∧ p2Dir.up.run = true := ⟨rfl, rfl, rfl, rfl, rfl, rfl⟩
/-- K8: both engines running. -/
theorem witness_StepsOfTheTwoEnginesCommute :
    exec (.pkEsc 0x6C#8 0xDB#8) { p1Dir with up := p2Dir.up } = .next { p1Esc with up := p2Dir.up } ∧
    ∃ t, exec (.upHalf 0xD86C#16) { p1Dir with up := p2Dir.up } = .next t := ⟨rfl, _, rfl⟩
theorem witness_PackRunComputesPack : BlockInv (p1End [.host (.wrReg .pk .ctrl 1)]) ∧
    (p1End [.host (.wrReg .pk .ctrl 1)]).pk.run = false ∧ 1 % 2 = 1 ∧
    (p1End []).pk.ibuf.first 5 = some [0x48#8, 0x65#8, 0x6C#8, 0xDB#8, 0x6F#8] := ⟨p1End_inv _, rfl, rfl, rfl⟩
theorem witness_UnpackRunComputesUnpack : BlockInv (p2End [.host (.wrReg .up .ctrl 1)]) ∧
    (p2End []).pk.run = false ∧ (p2End []).up.run = false ∧ 1 % 2 = 1 ∧
    (p2End []).up.ibuf.first 4 = some [0x6548#16, 0xD86C#16, 0xDCDB#16, 0x006F#16] := ⟨p2End_inv _, rfl, rfl, rfl, rfl⟩
theorem witness_codec_lengths : ([0x01#8, 0x02#8] : List Byte).length % 2 = 0 ∧ ([0x7F#8] : List Byte).length % 2 = 1 ∧
    escapes [0x01#8, 0x02#8] = 0 ∧ reserved 0xD8#8 = true ∧ reserved 0xDF#8 = true := by decide
theorem witness_PackForgetsOnlyThePadding : pack ([0x01#8, 0x02#8] : List Byte) = pack [0x01#8, 0x02#8] := rfl
theorem witness_Canonical : Canonical [0xD841#16, 0xDCD9#16] := ⟨[.escape 0x41#8 0xD9#8], by decide, by decide⟩
theorem witness_PackedSurrogates : (pack [0x41#8, 0xDF#8])[0]? = some 0xD841#16 ∧ (pack [0x41#8, 0xDF#8])[1]? = some 0xDCDF#16 := by
  decide

end Sys2Proof.Tests
end

namespace Sys2Proof.Machine

/-! Fields of a unit and the reserved range (00_scope.md R7, R9). -/

/-- A mask of the low eight bits keeps the value modulo 256. -/
theorem toNat_and_lowByteMask (u : CodeUnit) : (u &&& 0xFF#16).toNat = u.toNat % 256 := by
  rw [BitVec.toNat_and]
  exact Nat.and_two_pow_sub_one_eq_mod u.toNat 8

/-- A mask of the top five bits clears the eleven bits below them. -/
theorem toNat_and_topFiveMask (u : CodeUnit) : (u &&& 0xF800#16).toNat = u.toNat / 2048 * 2048 := by
  have hmask : 0xF800#16 = BitVec.allOnes 16 <<< 11 := by decide
  have hu := u.isLt
  rw [hmask, ← BitVec.shiftLeft_ushiftRight, BitVec.toNat_shiftLeft, BitVec.toNat_ushiftRight,
    Nat.shiftLeft_eq, Nat.shiftRight_eq_div_pow]
  omega

/-- The reserved bytes are those whose top five bits are 11011. -/
theorem reserved_iff_topFiveBits (h : Byte) : reserved h = true ↔ h.toNat / 8 = 0b11011 := by
  rw [reserved_iff]; omega

/-- The reserved units are those whose top five bits are 11011. -/
theorem reserved_high_iff_mask (u : CodeUnit) :
    reserved (high u) = true ↔ u &&& 0xF800#16 = 0xD800#16 := by
  have hd : (0xD800#16).toNat = 0xD800 := rfl
  rw [reserved_high_iff, ← BitVec.toNat_inj, toNat_and_topFiveMask, hd]
  omega

/-- Settles O5: each mask and shift of R7 is the quotient or remainder by 256 that the slice is. -/
theorem unitFieldsAreByteSlices : Obligations.UnitFieldsAreByteSlices := by
  intro u
  have hlow := low_toNat u
  have hhigh := high_toNat u
  refine ⟨?_, ?_, ?_⟩
  · rw [hlow, toNat_and_lowByteMask]
  · have hu := u.isLt
    rw [hhigh, toNat_and_lowByteMask, BitVec.toNat_ushiftRight, Nat.shiftRight_eq_div_pow]
    omega
  · omega

/-- Settles O6: R9's forms of `reserved` are the same interval of bytes and of units. -/
theorem reservedIsTheSurrogateRange : Obligations.ReservedIsTheSurrogateRange :=
  ⟨fun h => ⟨reserved_iff h, reserved_iff_topFiveBits h⟩,
   fun u => ⟨reserved_high_iff u, reserved_high_iff_mask u⟩⟩

/-! What an instruction and a step leave alone. -/

/-- An instruction replaces the state of its own engine and nothing else. -/
theorem exec_changes_own_engine {i : Instr} {s t : State} (h : exec i s = .next t) :
    (i.engine = .pk ∧ ∃ k, t = s.withPk k) ∨ (i.engine = .up ∧ ∃ k, t = s.withUp k) := by
  cases i with
  | pkDir => exact .inl ⟨rfl, _, (exec_pkDir_next_iff.1 h).2⟩
  | pkEsc => exact .inl ⟨rfl, _, (exec_pkEsc_next_iff.1 h).2⟩
  | pkPad => exact .inl ⟨rfl, _, (exec_pkPad_next_iff.1 h).2⟩
  | pkHalt => exact .inl ⟨rfl, _, (exec_pkHalt_next_iff.1 h).2⟩
  | pkStart => exact .inl ⟨rfl, _, (exec_pkStart_next_iff.1 h).2⟩
  | upDir => exact .inr ⟨rfl, _, (exec_upDir_next_iff.1 h).2⟩
  | upHalf => exact .inr ⟨rfl, _, (exec_upHalf_next_iff.1 h).2⟩
  | upHalt => exact .inr ⟨rfl, _, (exec_upHalt_next_iff.1 h).2⟩
  | upStart => exact .inr ⟨rfl, _, (exec_upStart_next_iff.1 h).2⟩

theorem exec_cfg {i : Instr} {s t : State} (h : exec i s = .next t) : t.cfg = s.cfg := by
  rcases exec_changes_own_engine h with ⟨-, k, rfl⟩ | ⟨-, k, rfl⟩
  · rfl
  · rfl

/-- No step writes the parameters (10_state.md R41). -/
theorem step_cfg {s t : State} (h : step s = .next t) : t.cfg = s.cfg := by
  cases step_cases h with
  | instr i run => exact exec_cfg (s := s.popped) run
  | idle same => rw [same]; rfl
  | reset _ _ same => rw [same]; rfl
  | pkLen _ _ _ same => rw [same]; rfl
  | upLen _ _ _ same => rw [same]; rfl
  | pkInput _ _ _ _ same => rw [same]; rfl
  | upInput _ _ _ _ same => rw [same]; rfl
  | read _ same => rw [same]; rfl

/-! The counters of one engine, bounded by the capacity of its input (10_state.md R23, R25, R29, R30, R37). -/

theorem withinCap_of_le {cap : Option Nat} {v v' : Nat} (h : withinCap cap v' = true) (hle : v ≤ v') :
    withinCap cap v = true :=
  (withinCap_iff cap v).2 fun c hc => hle.trans ((withinCap_iff cap v').1 h c hc)

/-- A pair with a reserved second byte lies wholly inside the input: the pad is not reserved. -/
theorem fetchPair_reserved_inside {k : EngineState 8 16} {b0 b1 : Byte} (hf : fetchPair k = some (b0, b1))
    (hr : reserved b1 = true) : k.pos + 2 ≤ k.len := by
  obtain ⟨-, -, ⟨hlt, -⟩ | ⟨-, rfl⟩⟩ := fetchPair_some_iff.1 hf
  · exact hlt
  · simp at hr

/-- `LEN` and `POS` are within the capacity, and at most `rate` output elements stand for each input element passed. -/
structure CountersWithin {wi wo : Nat} (cap : Option Nat) (rate : Nat) (k : EngineState wi wo) : Prop where
  len_legal : withinCap cap k.len = true
  pos_legal : withinCap cap k.pos = true
  olen_le : k.olen ≤ rate * k.pos

section Counters

variable {wi wo rate : Nat} {cap : Option Nat} {k : EngineState wi wo}

theorem CountersWithin.reset : CountersWithin cap rate (EngineState.reset : EngineState wi wo) :=
  ⟨withinCap_zero cap, withinCap_zero cap, Nat.zero_le _⟩

theorem CountersWithin.begin (h : CountersWithin cap rate k) : CountersWithin cap rate k.begin :=
  ⟨h.len_legal, withinCap_zero cap, Nat.zero_le _⟩

theorem CountersWithin.halt (h : CountersWithin cap rate k) : CountersWithin cap rate k.halt :=
  ⟨h.len_legal, h.pos_legal, h.olen_le⟩

theorem CountersWithin.setLen (h : CountersWithin cap rate k) {v : Nat} (hv : withinCap cap v = true) :
    CountersWithin cap rate { k with len := v } :=
  ⟨hv, h.pos_legal, h.olen_le⟩

theorem CountersWithin.setInput (h : CountersWithin cap rate k) (m : Memory wi) :
    CountersWithin cap rate { k with ibuf := m } :=
  ⟨h.len_legal, h.pos_legal, h.olen_le⟩

/-- A step that emits one element and moves to `p`, not past the input. -/
theorem CountersWithin.emit_jump (h : CountersWithin cap rate k) (v : BitVec wo) {p : Nat} (hp : p ≤ k.len)
    (hr : rate * k.pos + 1 ≤ rate * p) : CountersWithin cap rate ((k.emit v).jump p) :=
  ⟨h.len_legal, withinCap_of_le h.len_legal hp, (Nat.succ_le_succ h.olen_le).trans hr⟩

/-- A step that emits two elements and moves to `p`, not past the input. -/
theorem CountersWithin.emit_emit_jump (h : CountersWithin cap rate k) (v v' : BitVec wo) {p : Nat}
    (hp : p ≤ k.len) (hr : rate * k.pos + 2 ≤ rate * p) :
    CountersWithin cap rate (((k.emit v).emit v').jump p) :=
  ⟨h.len_legal, withinCap_of_le h.len_legal hp, (Nat.add_le_add_right h.olen_le 2).trans hr⟩

/-- Counters within a capacity `c` fit the bits that hold the capacity `rate * c` of the output. -/
theorem CountersWithin.lt_two_pow {c w : Nat} (h : CountersWithin (some c) rate k) (hrate : 0 < rate)
    (hc : rate * c < 2 ^ w) : k.len < 2 ^ w ∧ k.pos < 2 ^ w ∧ k.olen < 2 ^ w := by
  have hlen : k.len ≤ c := (withinCap_iff _ _).1 h.len_legal c rfl
  have hpos : k.pos ≤ c := (withinCap_iff _ _).1 h.pos_legal c rfl
  have hcap : c ≤ rate * c := Nat.le_mul_of_pos_left c hrate
  have holen : k.olen ≤ rate * c := h.olen_le.trans (Nat.mul_le_mul_left rate hpos)
  exact ⟨by omega, by omega, by omega⟩

end Counters

/-- The counters of both engines: the Packer emits at most one unit per byte it passes, the Unpacker at most two bytes
per unit. -/
structure BlockCounters (s : State) : Prop where
  pk : CountersWithin s.cfg.pkCap 1 s.pk
  up : CountersWithin s.cfg.upCap 2 s.up

theorem BlockInv.counters {s : State} (h : BlockInv s) : BlockCounters s :=
  ⟨⟨h.pk.len_legal, h.pk.pos_legal, by simpa using h.pk.olen_upper⟩,
   ⟨h.up.len_legal, h.up.pos_legal, h.up.olen_upper⟩⟩

theorem exec_keeps_counters {i : Instr} {s t : State} (hs : BlockCounters s) (h : exec i s = .next t) :
    BlockCounters t := by
  cases i with
  | pkDir b0 b1 =>
    obtain ⟨⟨-, hf, -⟩, rfl⟩ := exec_pkDir_next_iff.1 h
    have hlt : s.pk.pos < s.pk.len := (fetchPair_some_iff.1 hf).1
    exact ⟨hs.pk.emit_jump _ (Nat.min_le_right _ _) (by omega), hs.up⟩
  | pkEsc b0 b1 =>
    obtain ⟨⟨-, hf, hr⟩, rfl⟩ := exec_pkEsc_next_iff.1 h
    exact ⟨hs.pk.emit_emit_jump _ _ (fetchPair_reserved_inside hf hr) (by omega), hs.up⟩
  | pkPad b0 =>
    obtain ⟨⟨-, hodd, -⟩, rfl⟩ := exec_pkPad_next_iff.1 h
    have hlast : s.pk.pos + 1 = s.pk.len := ((atOddTail_iff _).1 hodd).2
    exact ⟨hs.pk.emit_jump _ le_rfl (by omega), hs.up⟩
  | pkHalt =>
    obtain ⟨-, rfl⟩ := exec_pkHalt_next_iff.1 h
    exact ⟨hs.pk.halt, hs.up⟩
  | pkStart =>
    obtain ⟨-, rfl⟩ := exec_pkStart_next_iff.1 h
    exact ⟨hs.pk.begin, hs.up⟩
  | upDir u =>
    obtain ⟨⟨-, hf, -⟩, rfl⟩ := exec_upDir_next_iff.1 h
    exact ⟨hs.pk, hs.up.emit_emit_jump _ _ (fetchUnit_some_iff.1 hf).1 (by omega)⟩
  | upHalf u =>
    obtain ⟨⟨-, hf, -⟩, rfl⟩ := exec_upHalf_next_iff.1 h
    exact ⟨hs.pk, hs.up.emit_jump _ (fetchUnit_some_iff.1 hf).1 (by omega)⟩
  | upHalt =>
    obtain ⟨-, rfl⟩ := exec_upHalt_next_iff.1 h
    exact ⟨hs.pk, hs.up.halt⟩
  | upStart =>
    obtain ⟨-, rfl⟩ := exec_upStart_next_iff.1 h
    exact ⟨hs.pk, hs.up.begin⟩

theorem step_keeps_counters {s t : State} (hs : BlockCounters s) (h : step s = .next t) : BlockCounters t := by
  have hpop : BlockCounters s.popped := ⟨hs.pk, hs.up⟩
  cases step_cases h with
  | instr i run => exact exec_keeps_counters hpop run
  | idle same => exact same ▸ hpop
  | reset _ _ same => exact same ▸ ⟨.reset, .reset⟩
  | pkLen v _ legal same => exact same ▸ ⟨hpop.pk.setLen legal, hpop.up⟩
  | upLen v _ legal same => exact same ▸ ⟨hpop.pk, hpop.up.setLen legal⟩
  | pkInput i b _ _ same => exact same ▸ ⟨hpop.pk.setInput _, hpop.up⟩
  | upInput i u _ _ same => exact same ▸ ⟨hpop.pk, hpop.up.setInput _⟩
  | read v same => exact same ▸ ⟨hpop.pk, hpop.up⟩

/-- Settles O4: a step keeps the counters within the capacities, and R6 makes the capacities fit `LENW` bits. -/
theorem countersFitLenwBits : Obligations.CountersFitLenwBits := by
  intro s t w hinv hlegal hlenw hstep
  obtain ⟨hpk, hup⟩ := step_keeps_counters hinv.counters hstep
  obtain ⟨⟨p, hp, hpw⟩, u, hu, huw⟩ := hlegal w hlenw
  rw [step_cfg hstep, hp] at hpk
  rw [step_cfg hstep, hu] at hup
  obtain ⟨hlen, hpos, holen⟩ := hpk.lt_two_pow Nat.one_pos ((one_mul p).symm ▸ hpw)
  exact ⟨hlen, hpos, holen, hup.lt_two_pow Nat.two_pos huw⟩

end Sys2Proof.Machine

namespace Sys2Proof.Machine

/-! The elements one step emits, as a list. -/

/-- `emit` of each element of a list, in order (00_scope.md R11). -/
def EngineState.emitAll {wi wo : Nat} (k : EngineState wi wo) (l : List (BitVec wo)) : EngineState wi wo :=
  l.foldl EngineState.emit k

section EmitAll

variable {wi wo : Nat} (k : EngineState wi wo)

@[simp] theorem emitAll_nil : k.emitAll [] = k := rfl

@[simp] theorem emitAll_cons (v : BitVec wo) (l : List (BitVec wo)) :
    k.emitAll (v :: l) = (k.emit v).emitAll l := rfl

@[simp] theorem emitAll_run (l : List (BitVec wo)) : (k.emitAll l).run = k.run := by
  induction l generalizing k with
  | nil => rfl
  | cons v l ih => exact ih (k.emit v)

@[simp] theorem emitAll_len (l : List (BitVec wo)) : (k.emitAll l).len = k.len := by
  induction l generalizing k with
  | nil => rfl
  | cons v l ih => exact ih (k.emit v)

@[simp] theorem emitAll_ibuf (l : List (BitVec wo)) : (k.emitAll l).ibuf = k.ibuf := by
  induction l generalizing k with
  | nil => rfl
  | cons v l ih => exact ih (k.emit v)

@[simp] theorem emitAll_olen (l : List (BitVec wo)) : (k.emitAll l).olen = k.olen + l.length := by
  induction l generalizing k with
  | nil => rfl
  | cons v l ih => simp [ih, Nat.add_right_comm, Nat.add_assoc]

variable {k}

theorem emitAll_obuf_wf (l : List (BitVec wo)) (h : k.obuf.wf) : (k.emitAll l).obuf.wf := by
  induction l generalizing k with
  | nil => exact h
  | cons v l ih => exact ih (write_wf k.olen v h)

/-- The output stays inside its capacity when the count after the last element does. -/
theorem emitAll_obuf_below {cap : Option Nat} (l : List (BitVec wo)) (h : k.obuf.below cap = true)
    (hcap : withinCap cap (k.olen + l.length) = true) : (k.emitAll l).obuf.below cap = true := by
  induction l generalizing k with
  | nil => exact h
  | cons v l ih =>
    have hcap' := (withinCap_iff _ _).1 hcap
    simp only [List.length_cons] at hcap'
    refine ih (k := k.emit v) (write_below v h ((belowCap_iff _ _).2 fun c hc => ?_))
      ((withinCap_iff _ _).2 fun c hc => ?_)
    · have := hcap' c hc; omega
    · have := hcap' c hc; simp only [emit_olen]; omega

/-- The elements emitted stand after the output so far. -/
theorem emitAll_first {o : List (BitVec wo)} (l : List (BitVec wo)) (h : k.obuf.first k.olen = some o) :
    (k.emitAll l).obuf.first (k.olen + l.length) = some (o ++ l) := by
  induction l generalizing k o with
  | nil => simpa using h
  | cons v l ih =>
    have := ih (k := k.emit v) (first_write_end v h)
    simpa [Nat.add_assoc, Nat.add_comm 1] using this

end EmitAll

/-! Everything a step of the block can do to one engine. -/

/-- The Packer's data steps as one rule (40_packer.md R112, R113, R118, R120): the pair at `POS` packs to the units `l`,
and the position becomes `p`. -/
def PackerConsumes (k : EngineState 8 16) (l : List CodeUnit) (p : Nat) : Prop :=
  ∃ b0 b1, fetchPair k = some (b0, b1) ∧ l = packPair b0 b1 ∧ p = min (k.pos + 2) k.len

/-- The Unpacker's data steps as one rule (41_unpacker.md R142, R143, R148): the unit at `POS` unpacks to the bytes `l`,
and the position becomes `p`. -/
def UnpackerConsumes (o : DirectOrder) (k : EngineState 16 8) (l : List Byte) (p : Nat) : Prop :=
  ∃ u, fetchUnit k = some u ∧ l = unpackUnit o u ∧ p = k.pos + 1

/-- The ways a step can take engine `e` from `k` to `k'`, where `consumes` is the rule of its data steps and `cap` the
capacity of its input. -/
inductive EngineChange {wi wo : Nat} (e : Engine) (cap : Option Nat)
    (consumes : EngineState wi wo → List (BitVec wo) → Nat → Prop) (agenda : List Event)
    (k k' : EngineState wi wo) : Prop
  | kept (same : k' = k)
  | data (l : List (BitVec wo)) (p : Nat) (running : k.run = true) (consumed : consumes k l p)
      (same : k' = (k.emitAll l).jump p)
  | halt (running : k.run = true) (atEnd : k.pos = k.len) (same : k' = k.halt)
  | start (atRest : k.run = false) (written : (k.ibuf.first k.len).isSome = true)
      (ev : ∃ ev rest, agenda = ev :: rest ∧ ev.isStart e = true) (same : k' = k.begin)
  | reset (ev : ∃ rest, agenda = .reset :: rest) (same : k' = EngineState.reset)
  | setLen (v : Nat) (atRest : k.run = false) (legal : withinCap cap v = true)
      (ev : ∃ rest, agenda = .host (.wrReg e .len v) :: rest) (same : k' = { k with len := v })
  | setInput (i : Nat) (v : BitVec wi) (atRest : k.run = false) (legal : belowCap cap i = true)
      (same : k' = { k with ibuf := k.ibuf.write i v })

/-- What a step of the block can do to the Packer. -/
abbrev PackerChange (s : State) (k' : EngineState 8 16) : Prop :=
  EngineChange .pk s.cfg.pkCap PackerConsumes s.agenda s.pk k'

/-- What a step of the block can do to the Unpacker. -/
abbrev UnpackerChange (s : State) (k' : EngineState 16 8) : Prop :=
  EngineChange .up s.cfg.upCap (UnpackerConsumes s.cfg.directOrder) s.agenda s.up k'

theorem exec_packerChange {i : Instr} {s t : State} (he : i.engine = .pk) (h : exec i s.popped = .next t)
    (command : i = .pkStart ∨ i = .upStart → ∃ ev rest, s.agenda = ev :: rest ∧ ev.isStart i.engine = true) :
    PackerChange s t.pk := by
  cases i with
  | pkDir b0 b1 =>
    obtain ⟨⟨hrun, hf, hb⟩, rfl⟩ := exec_pkDir_next_iff.1 h
    exact .data _ _ hrun ⟨b0, b1, hf, rfl, rfl⟩ (by rw [packPair_direct hb]; rfl)
  | pkEsc b0 b1 =>
    obtain ⟨⟨hrun, hf, hb⟩, rfl⟩ := exec_pkEsc_next_iff.1 h
    have hin : s.pk.pos + 2 ≤ s.pk.len := fetchPair_reserved_inside hf hb
    exact .data _ _ hrun ⟨b0, b1, hf, rfl, rfl⟩ (by rw [packPair_escape hb, Nat.min_eq_left hin]; rfl)
  | pkPad b0 =>
    obtain ⟨⟨hrun, hodd, hread⟩, rfl⟩ := exec_pkPad_next_iff.1 h
    have hlast := ((atOddTail_iff _).1 hodd).2
    have hf : fetchPair s.pk = some (b0, padByte) :=
      fetchPair_some_iff.2 ⟨hlast ▸ Nat.lt_succ_self _, hread, .inr ⟨hlast, rfl⟩⟩
    have hp : s.pk.len ≤ s.pk.pos + 2 := hlast ▸ Nat.le_succ _
    exact .data _ _ hrun ⟨b0, padByte, hf, rfl, rfl⟩
      (by rw [packPair_direct reserved_pad, Nat.min_eq_right hp, ← padUnit_eq]; rfl)
  | pkHalt =>
    obtain ⟨⟨hrun, hend⟩, rfl⟩ := exec_pkHalt_next_iff.1 h
    exact .halt hrun hend rfl
  | pkStart =>
    obtain ⟨⟨hrest, -, hwritten⟩, rfl⟩ := exec_pkStart_next_iff.1 h
    exact .start hrest hwritten (command (.inl rfl)) rfl
  | upDir | upHalf | upHalt | upStart => cases he

theorem exec_unpackerChange {i : Instr} {s t : State} (he : i.engine = .up) (h : exec i s.popped = .next t)
    (command : i = .pkStart ∨ i = .upStart → ∃ ev rest, s.agenda = ev :: rest ∧ ev.isStart i.engine = true) :
    UnpackerChange s t.up := by
  cases i with
  | upDir u =>
    obtain ⟨⟨hrun, hf, hu⟩, rfl⟩ := exec_upDir_next_iff.1 h
    exact .data _ _ hrun ⟨u, hf, rfl, rfl⟩
      (by rw [unpackUnit_direct hu, withAgenda_cfg]; cases s.cfg.directOrder <;> rfl)
  | upHalf u =>
    obtain ⟨⟨hrun, hf, hu⟩, rfl⟩ := exec_upHalf_next_iff.1 h
    exact .data _ _ hrun ⟨u, hf, rfl, rfl⟩ (by rw [unpackUnit_half hu]; rfl)
  | upHalt =>
    obtain ⟨⟨hrun, hend⟩, rfl⟩ := exec_upHalt_next_iff.1 h
    exact .halt hrun hend rfl
  | upStart =>
    obtain ⟨⟨hrest, -, hwritten⟩, rfl⟩ := exec_upStart_next_iff.1 h
    exact .start hrest hwritten (command (.inr rfl)) rfl
  | pkDir | pkEsc | pkPad | pkHalt | pkStart => cases he

theorem step_packerChange {s t : State} (h : step s = .next t) : PackerChange s t.pk := by
  cases step_cases h with
  | instr i run command =>
    rcases exec_changes_own_engine run with ⟨he, -⟩ | ⟨-, k, rfl⟩
    · exact exec_packerChange he run command
    · exact .kept rfl
  | idle same => exact .kept (same ▸ rfl)
  | reset rest ev same => exact .reset ⟨rest, ev⟩ (same ▸ rfl)
  | pkLen v atRest legal same ev => exact .setLen v atRest legal ev (same ▸ rfl)
  | upLen _ _ _ same => exact .kept (same ▸ rfl)
  | pkInput i b atRest legal same => exact .setInput i b atRest legal (same ▸ rfl)
  | upInput _ _ _ _ same => exact .kept (same ▸ rfl)
  | read _ same => exact .kept (same ▸ rfl)

theorem step_unpackerChange {s t : State} (h : step s = .next t) : UnpackerChange s t.up := by
  cases step_cases h with
  | instr i run command =>
    rcases exec_changes_own_engine run with ⟨-, k, rfl⟩ | ⟨he, -⟩
    · exact .kept rfl
    · exact exec_unpackerChange he run command
  | idle same => exact .kept (same ▸ rfl)
  | reset rest ev same => exact .reset ⟨rest, ev⟩ (same ▸ rfl)
  | pkLen _ _ _ same => exact .kept (same ▸ rfl)
  | upLen v atRest legal same ev => exact .setLen v atRest legal ev (same ▸ rfl)
  | pkInput _ _ _ _ same => exact .kept (same ▸ rfl)
  | upInput i u atRest legal same => exact .setInput i u atRest legal (same ▸ rfl)
  | read _ same => exact .kept (same ▸ rfl)

/-! Counts and values of a data step. -/

/-- A pair inside the input packs to one or two units; the last byte of an odd input packs to one. -/
theorem PackerConsumes.counts {k : EngineState 8 16} {l : List CodeUnit} {p : Nat} (h : PackerConsumes k l p) :
    (k.pos + 2 ≤ k.len ∧ p = k.pos + 2 ∧ (l.length = 1 ∨ l.length = 2)) ∨
      (k.pos + 1 = k.len ∧ p = k.len ∧ l.length = 1) := by
  obtain ⟨b0, b1, hf, rfl, rfl⟩ := h
  obtain ⟨-, -, ⟨hlt, -⟩ | ⟨hlast, rfl⟩⟩ := fetchPair_some_iff.1 hf
  · refine .inl ⟨hlt, Nat.min_eq_left hlt, ?_⟩
    cases hb : reserved b1 with
    | false => exact .inl (by rw [packPair_direct hb]; rfl)
    | true => exact .inr (by rw [packPair_escape hb]; rfl)
  · exact .inr ⟨hlast, by omega, by rw [packPair_direct reserved_pad]; rfl⟩

/-- The units a data step emits are the ones the bytes it passes add to the packed input (40_packer.md R118). -/
theorem PackerConsumes.pack_take {k : EngineState 8 16} {l : List CodeUnit} {p : Nat} {buf : List Byte}
    (h : PackerConsumes k l p) (heven : k.pos % 2 = 0) (hbuf : k.ibuf.first k.len = some buf) :
    pack (buf.take p) = pack (buf.take k.pos) ++ l := by
  obtain ⟨b0, b1, hf, rfl, rfl⟩ := h
  obtain ⟨hlt, h0, hcase⟩ := fetchPair_some_iff.1 hf
  have hlen := first_length hbuf
  have htake : (buf.take k.pos).length % 2 = 0 := by rw [List.length_take]; omega
  have htake1 : buf.take (k.pos + 1) = buf.take k.pos ++ [b0] := by
    rw [List.take_add_one, ← first_read hbuf hlt, h0]; rfl
  obtain ⟨hlt1, h1⟩ | ⟨hlast, rfl⟩ := hcase
  · have htake2 : buf.take (k.pos + 2) = buf.take k.pos ++ [b0, b1] := by
      rw [List.take_add_one, ← first_read hbuf hlt1, h1, htake1, List.append_assoc]; rfl
    rw [Nat.min_eq_left hlt1, htake2, pack_append_pair _ _ _ htake]
  · rw [Nat.min_eq_right (by omega), ← hlast, htake1, pack_append_one _ _ htake]

/-- A data step passes one unit, which unpacks to one or two bytes. -/
theorem UnpackerConsumes.counts {o : DirectOrder} {k : EngineState 16 8} {l : List Byte} {p : Nat}
    (h : UnpackerConsumes o k l p) : k.pos < k.len ∧ p = k.pos + 1 ∧ (l.length = 1 ∨ l.length = 2) := by
  obtain ⟨u, hf, rfl, rfl⟩ := h
  refine ⟨(fetchUnit_some_iff.1 hf).1, rfl, ?_⟩
  cases hu : reserved (high u) with
  | false => exact .inr (by rw [unpackUnit_direct hu]; cases o <;> rfl)
  | true => exact .inl (by rw [unpackUnit_half hu]; rfl)

/-- The bytes a data step emits are the ones the unit it passes adds to the unpacked input (41_unpacker.md R148). -/
theorem UnpackerConsumes.unpack_take {o : DirectOrder} {k : EngineState 16 8} {l : List Byte} {p : Nat}
    {units : List CodeUnit} (h : UnpackerConsumes o k l p) (hunits : k.ibuf.first k.len = some units) :
    unpack o (units.take p) = unpack o (units.take k.pos) ++ l := by
  obtain ⟨u, hf, rfl, rfl⟩ := h
  obtain ⟨hlt, hu⟩ := fetchUnit_some_iff.1 hf
  have htake : units.take (k.pos + 1) = units.take k.pos ++ [u] := by
    rw [List.take_add_one, ← first_read hunits hlt, hu]; rfl
  rw [htake, unpack_append_one]

/-! The invariant of each engine is kept by every change. -/

/-- What is claimed of a running engine holds of one at rest. -/
theorem vacuous_at_rest {wi wo : Nat} {k : EngineState wi wo} {p : Prop} (h : k.run = false) : k.run = true → p :=
  fun hrun => absurd hrun (by simp [h])

section PackerInvariant

variable {cfg : Config} {k : EngineState 8 16}

theorem PackerInv.reset : PackerInv cfg EngineState.reset where
  ibuf_wf := nil_wf
  obuf_wf := nil_wf
  ibuf_below := below_nil _
  obuf_below := below_nil _
  len_legal := withinCap_zero _
  pos_legal := withinCap_zero _
  olen_lower := Nat.le_refl 0
  olen_upper := Nat.le_refl 0
  output_written := rfl
  pos_le_len := vacuous_at_rest rfl
  pos_even := vacuous_at_rest rfl
  input_written := vacuous_at_rest rfl
  output_packs := vacuous_at_rest rfl

theorem PackerInv.halt (h : PackerInv cfg k) : PackerInv cfg k.halt :=
  { h with
    pos_le_len := vacuous_at_rest rfl
    pos_even := vacuous_at_rest rfl
    input_written := vacuous_at_rest rfl
    output_packs := vacuous_at_rest rfl }

theorem PackerInv.setLen (h : PackerInv cfg k) {v : Nat} (atRest : k.run = false)
    (legal : withinCap cfg.pkCap v = true) : PackerInv cfg { k with len := v } :=
  { h with
    len_legal := legal
    pos_le_len := vacuous_at_rest atRest
    pos_even := vacuous_at_rest atRest
    input_written := vacuous_at_rest atRest
    output_packs := vacuous_at_rest atRest }

theorem PackerInv.setInput (h : PackerInv cfg k) {i : Nat} (b : Byte) (atRest : k.run = false)
    (legal : belowCap cfg.pkCap i = true) : PackerInv cfg { k with ibuf := k.ibuf.write i b } :=
  { h with
    ibuf_wf := write_wf i b h.ibuf_wf
    ibuf_below := write_below b h.ibuf_below legal
    pos_le_len := vacuous_at_rest atRest
    pos_even := vacuous_at_rest atRest
    input_written := vacuous_at_rest atRest
    output_packs := vacuous_at_rest atRest }

/-- START begins with the empty output, which is the packing of no input. -/
theorem PackerInv.begin (h : PackerInv cfg k) (written : (k.ibuf.first k.len).isSome = true) :
    PackerInv cfg k.begin :=
  { h with
    pos_legal := withinCap_zero _
    olen_lower := by simp
    olen_upper := Nat.le_refl 0
    output_written := rfl
    pos_le_len := fun _ => Nat.zero_le _
    pos_even := fun _ => .inl rfl
    input_written := fun _ => written
    output_packs := fun _ => by
      obtain ⟨buf, hbuf⟩ := Option.isSome_iff_exists.1 written
      simp [hbuf, pack] }

theorem PackerInv.consume (h : PackerInv cfg k) {l : List CodeUnit} {p : Nat} (running : k.run = true)
    (consumed : PackerConsumes k l p) : PackerInv cfg ((k.emitAll l).jump p) := by
  have hcounts := consumed.counts
  have heven : k.pos % 2 = 0 := (h.pos_even running).resolve_right (by omega)
  have hlower := h.olen_lower
  have hupper := h.olen_upper
  have hp : p ≤ k.len := by omega
  have hcount : k.olen + l.length ≤ p := by omega
  have hcap : withinCap cfg.pkCap p = true := withinCap_of_le h.len_legal hp
  obtain ⟨buf, hbuf⟩ := Option.isSome_iff_exists.1 (h.input_written running)
  have hout : k.obuf.first k.olen = some (pack (buf.take k.pos)) := by rw [h.output_packs running, hbuf]; rfl
  have hfirst := emitAll_first l hout
  rw [← consumed.pack_take heven hbuf] at hfirst
  refine
    { ibuf_wf := by simpa using h.ibuf_wf
      obuf_wf := emitAll_obuf_wf l h.obuf_wf
      ibuf_below := by simpa using h.ibuf_below
      obuf_below := emitAll_obuf_below l h.obuf_below (withinCap_of_le hcap hcount)
      len_legal := by simpa using h.len_legal
      pos_legal := hcap
      olen_lower := by simp only [jump_pos, jump_olen, emitAll_olen]; omega
      olen_upper := by simpa using hcount
      output_written := by simp [hfirst]
      pos_le_len := fun _ => by simpa using hp
      pos_even := fun _ => by simp only [jump_pos, jump_len, emitAll_len]; omega
      input_written := fun _ => by simp [hbuf]
      output_packs := fun _ => by simp [hfirst, hbuf] }

end PackerInvariant

theorem PackerInv.change {s : State} {k' : EngineState 8 16} (h : PackerInv s.cfg s.pk) (hc : PackerChange s k') :
    PackerInv s.cfg k' := by
  cases hc with
  | kept same => exact same ▸ h
  | data l p running consumed same => exact same ▸ h.consume running consumed
  | halt _ _ same => exact same ▸ h.halt
  | start _ written _ same => exact same ▸ h.begin written
  | reset _ same => exact same ▸ .reset
  | setLen v atRest legal _ same => exact same ▸ h.setLen atRest legal
  | setInput i b atRest legal same => exact same ▸ h.setInput b atRest legal

section UnpackerInvariant

variable {cfg : Config} {k : EngineState 16 8}

theorem UnpackerInv.reset : UnpackerInv cfg EngineState.reset where
  ibuf_wf := nil_wf
  obuf_wf := nil_wf
  ibuf_below := below_nil _
  obuf_below := below_nil _
  len_legal := withinCap_zero _
  pos_legal := withinCap_zero _
  olen_lower := Nat.le_refl 0
  olen_upper := Nat.le_refl 0
  output_written := rfl
  pos_le_len := vacuous_at_rest rfl
  input_written := vacuous_at_rest rfl
  output_unpacks := vacuous_at_rest rfl

theorem UnpackerInv.halt (h : UnpackerInv cfg k) : UnpackerInv cfg k.halt :=
  { h with
    pos_le_len := vacuous_at_rest rfl
    input_written := vacuous_at_rest rfl
    output_unpacks := vacuous_at_rest rfl }

theorem UnpackerInv.setLen (h : UnpackerInv cfg k) {v : Nat} (atRest : k.run = false)
    (legal : withinCap cfg.upCap v = true) : UnpackerInv cfg { k with len := v } :=
  { h with
    len_legal := legal
    pos_le_len := vacuous_at_rest atRest
    input_written := vacuous_at_rest atRest
    output_unpacks := vacuous_at_rest atRest }

theorem UnpackerInv.setInput (h : UnpackerInv cfg k) {i : Nat} (u : CodeUnit) (atRest : k.run = false)
    (legal : belowCap cfg.upCap i = true) : UnpackerInv cfg { k with ibuf := k.ibuf.write i u } :=
  { h with
    ibuf_wf := write_wf i u h.ibuf_wf
    ibuf_below := write_below u h.ibuf_below legal
    pos_le_len := vacuous_at_rest atRest
    input_written := vacuous_at_rest atRest
    output_unpacks := vacuous_at_rest atRest }

/-- START begins with the empty output, which is the unpacking of no input. -/
theorem UnpackerInv.begin (h : UnpackerInv cfg k) (written : (k.ibuf.first k.len).isSome = true) :
    UnpackerInv cfg k.begin :=
  { h with
    pos_legal := withinCap_zero _
    olen_lower := Nat.le_refl 0
    olen_upper := Nat.le_refl 0
    output_written := rfl
    pos_le_len := fun _ => Nat.zero_le _
    input_written := fun _ => written
    output_unpacks := fun _ => by
      obtain ⟨units, hunits⟩ := Option.isSome_iff_exists.1 written
      simp [hunits, unpack] }

/-- A count of at most twice a legal length is within the capacity of `UP.OBUF`. -/
theorem withinCap_upOutCap {p n : Nat} (h : withinCap cfg.upCap p = true) (hn : n ≤ 2 * p) :
    withinCap (upOutCap cfg) n = true := by
  refine (withinCap_iff _ _).2 fun c hc => ?_
  obtain ⟨u, hu, rfl⟩ := Option.map_eq_some_iff.1 hc
  have := (withinCap_iff _ _).1 h u hu
  omega

theorem UnpackerInv.consume (h : UnpackerInv cfg k) {l : List Byte} {p : Nat} (running : k.run = true)
    (consumed : UnpackerConsumes cfg.directOrder k l p) : UnpackerInv cfg ((k.emitAll l).jump p) := by
  obtain ⟨hlt, hp, hlength⟩ := consumed.counts
  have hlower := h.olen_lower
  have hupper := h.olen_upper
  have hcount : k.olen + l.length ≤ 2 * p := by omega
  have hcap : withinCap cfg.upCap p = true := withinCap_of_le h.len_legal (by omega)
  obtain ⟨units, hunits⟩ := Option.isSome_iff_exists.1 (h.input_written running)
  have hout : k.obuf.first k.olen = some (unpack cfg.directOrder (units.take k.pos)) := by
    rw [h.output_unpacks running, hunits]; rfl
  have hfirst := emitAll_first l hout
  rw [← consumed.unpack_take hunits] at hfirst
  refine
    { ibuf_wf := by simpa using h.ibuf_wf
      obuf_wf := emitAll_obuf_wf l h.obuf_wf
      ibuf_below := by simpa using h.ibuf_below
      obuf_below := emitAll_obuf_below l h.obuf_below (withinCap_upOutCap hcap hcount)
      len_legal := by simpa using h.len_legal
      pos_legal := hcap
      olen_lower := by simp only [jump_pos, jump_olen, emitAll_olen]; omega
      olen_upper := by simpa using hcount
      output_written := by simp [hfirst]
      pos_le_len := fun _ => by simp only [jump_pos, jump_len, emitAll_len]; omega
      input_written := fun _ => by simp [hunits]
      output_unpacks := fun _ => by simp [hfirst, hunits] }

end UnpackerInvariant

theorem UnpackerInv.change {s : State} {k' : EngineState 16 8} (h : UnpackerInv s.cfg s.up)
    (hc : UnpackerChange s k') : UnpackerInv s.cfg k' := by
  cases hc with
  | kept same => exact same ▸ h
  | data l p running consumed same => exact same ▸ h.consume running consumed
  | halt _ _ same => exact same ▸ h.halt
  | start _ written _ same => exact same ▸ h.begin written
  | reset _ same => exact same ▸ .reset
  | setLen v atRest legal _ same => exact same ▸ h.setLen atRest legal
  | setInput i u atRest legal same => exact same ▸ h.setInput u atRest legal

/-- Settles O2: no parameter bounds the zero lengths and empty memories of reset. -/
theorem resetStateMeetsInvariant : Obligations.ResetStateMeetsInvariant :=
  fun _ _ _ => ⟨.reset, .reset⟩

/-- Settles O3: every change of an engine keeps its invariant, and a step keeps the parameters. -/
theorem stepKeepsInvariant : Obligations.StepKeepsInvariant := by
  intro s t hinv hstep
  constructor
  · rw [step_cfg hstep]; exact hinv.pk.change (step_packerChange hstep)
  · rw [step_cfg hstep]; exact hinv.up.change (step_unpackerChange hstep)

/-- Settles O35: each way a step can change the block leaves the parameters. -/
theorem parametersNeverChange : Obligations.ParametersNeverChange := fun _ _ => step_cfg

/-! What a change does to the registers of one engine, for both engines alike. -/

section Change

variable {wi wo : Nat} {e : Engine} {cap : Option Nat} {agenda : List Event} {k k' : EngineState wi wo}
  {consumes : EngineState wi wo → List (BitVec wo) → Nat → Prop}

theorem EngineChange.input_fixed (h : EngineChange e cap consumes agenda k k') (running : k.run = true)
    (noReset : ∀ rest, agenda ≠ .reset :: rest) : k'.len = k.len ∧ k'.ibuf = k.ibuf := by
  cases h with
  | kept same => exact same ▸ ⟨rfl, rfl⟩
  | data l p _ _ same => exact same ▸ ⟨emitAll_len k l, emitAll_ibuf k l⟩
  | halt _ _ same => exact same ▸ ⟨rfl, rfl⟩
  | start atRest => exact vacuous_at_rest atRest running
  | reset ev => exact absurd ev.choose_spec (noReset _)
  | setLen _ atRest => exact vacuous_at_rest atRest running
  | setInput _ _ atRest => exact vacuous_at_rest atRest running

/-- Of the changes that reach a running engine only START leaves one at rest. -/
theorem EngineChange.start_of_run_rises (h : EngineChange e cap consumes agenda k k') (atRest : k.run = false)
    (running : k'.run = true) : ∃ ev rest, agenda = ev :: rest ∧ ev.isStart e = true := by
  cases h with
  | start _ _ ev => exact ev
  | kept same => exact vacuous_at_rest (same ▸ atRest) running
  | data _ _ hrun => exact vacuous_at_rest atRest hrun
  | halt hrun => exact vacuous_at_rest atRest hrun
  | reset _ same => exact vacuous_at_rest (same ▸ rfl) running
  | setLen _ _ _ _ same => exact vacuous_at_rest (same ▸ atRest) running
  | setInput _ _ _ _ same => exact vacuous_at_rest (same ▸ atRest) running

theorem EngineChange.reset_or_halt_of_run_falls (h : EngineChange e cap consumes agenda k k')
    (running : k.run = true) (atRest : k'.run = false) :
    (∃ rest, agenda = .reset :: rest) ∨ (k.pos = k.len ∧ k' = { k with run := false }) := by
  cases h with
  | reset ev => exact .inl ev
  | halt _ atEnd same => exact .inr ⟨atEnd, same⟩
  | kept same => exact vacuous_at_rest (same ▸ atRest) running
  | data l p _ _ same =>
    rw [same, jump_run, emitAll_run] at atRest
    exact vacuous_at_rest atRest running
  | start hrest => exact vacuous_at_rest hrest running
  | setLen _ hrest => exact vacuous_at_rest hrest running
  | setInput _ _ hrest => exact vacuous_at_rest hrest running

/-- While a run goes on, only a data step moves the position. -/
theorem EngineChange.pos_in_run (h : EngineChange e cap consumes agenda k k') (running : k.run = true)
    (running' : k'.run = true) : k'.pos = k.pos ∨ ∃ l, consumes k l k'.pos := by
  cases h with
  | kept same => exact .inl (same ▸ rfl)
  | data l p _ consumed same => exact .inr ⟨l, same ▸ consumed⟩
  | halt _ _ same => exact vacuous_at_rest (same ▸ rfl) running'
  | reset _ same => exact vacuous_at_rest (same ▸ rfl) running'
  | start hrest => exact vacuous_at_rest hrest running
  | setLen _ hrest => exact vacuous_at_rest hrest running
  | setInput _ _ hrest => exact vacuous_at_rest hrest running

/-- But for a write to `LEN`, a change keeps `LEN` while the position stays or a data step moves it, or puts the position
at 0. -/
theorem EngineChange.pos_cases (h : EngineChange e cap consumes agenda k k')
    (noWrite : ∀ ev rest, agenda = ev :: rest → ev.isLenWrite e = false) :
    (k'.len = k.len ∧ (k'.pos = k.pos ∨ ∃ l, consumes k l k'.pos)) ∨ k'.pos = 0 := by
  cases h with
  | kept same => exact .inl (same ▸ ⟨rfl, .inl rfl⟩)
  | data l p _ consumed same => exact .inl (same ▸ ⟨emitAll_len k l, .inr ⟨l, consumed⟩⟩)
  | halt _ _ same => exact .inl (same ▸ ⟨rfl, .inl rfl⟩)
  | start _ _ _ same => exact .inr (same ▸ rfl)
  | reset _ same => exact .inr (same ▸ rfl)
  | setLen v _ _ ev =>
    obtain ⟨rest, hev⟩ := ev
    simpa [Event.isLenWrite] using noWrite _ _ hev
  | setInput _ _ _ _ same => exact .inl (same ▸ ⟨rfl, .inl rfl⟩)

end Change

/-- Settles O36: a running engine meets only moves of its own and a reset, and its moves write no input. -/
theorem inputIsFixedDuringARun : Obligations.InputIsFixedDuringARun :=
  fun _ _ hstep noReset =>
    ⟨fun running => (step_packerChange hstep).input_fixed running noReset,
     fun running => (step_unpackerChange hstep).input_fixed running noReset⟩

/-- Settles O37: of the changes of one engine, only START sets `RUN` and only HALT and reset clear it. -/
theorem runChangesOnlyAtStartHaltReset : Obligations.RunChangesOnlyAtStartHaltReset := by
  refine ⟨fun s t e hstep atRest running => ?_, fun s t hstep => ?_, fun s t hstep => ?_⟩
  · cases e with
    | pk => exact (step_packerChange hstep).start_of_run_rises atRest running
    | up => exact (step_unpackerChange hstep).start_of_run_rises atRest running
  · exact (step_packerChange hstep).reset_or_halt_of_run_falls
  · exact (step_unpackerChange hstep).reset_or_halt_of_run_falls

/-- Settles O38: a data step passes one or two bytes, or one unit. -/
theorem positionNeverDecreasesInARun : Obligations.PositionNeverDecreasesInARun := by
  refine fun s t hstep => ⟨fun running running' => ?_, fun running running' => ?_⟩
  · obtain hpos | ⟨l, consumed⟩ := (step_packerChange hstep).pos_in_run running running'
    · omega
    · have := consumed.counts; omega
  · obtain hpos | ⟨l, consumed⟩ := (step_unpackerChange hstep).pos_in_run running running'
    · omega
    · have := consumed.counts; omega

/-! What the two host writes do that the position invariants speak of (42_control.md R171, R172, R174). -/

theorem isStart_iff {e : Engine} {ev : Event} :
    ev.isStart e = true ↔ ∃ v, ev = .host (.wrReg e .ctrl v) ∧ v % 2 = 1 := by
  constructor
  · intro h
    unfold Event.isStart at h
    split at h
    · obtain ⟨rfl, hv⟩ : _ = e ∧ _ := by simpa using h
      exact ⟨_, rfl, hv⟩
    · cases h
  · rintro ⟨v, rfl, hv⟩
    simp [Event.isStart, hv]

theorem step_pkStart {s t : State} {ev : Event} {rest : List Event} (hag : s.agenda = ev :: rest)
    (hev : ev.isStart .pk = true) (h : step s = .next t) : t.pk = s.pk.begin := by
  obtain ⟨v, rfl, hv⟩ := isStart_iff.1 hev
  have hx : exec .pkStart (s.withAgenda rest) = .next t := by
    simpa [step_cons hag, runEvent, hostAct, hostWriteReg, runWord, decode, decodeCtrl, hv] using h
  rw [(exec_pkStart_next_iff.1 hx).2]; rfl

theorem step_upStart {s t : State} {ev : Event} {rest : List Event} (hag : s.agenda = ev :: rest)
    (hev : ev.isStart .up = true) (h : step s = .next t) : t.up = s.up.begin := by
  obtain ⟨v, rfl, hv⟩ := isStart_iff.1 hev
  have hx : exec .upStart (s.withAgenda rest) = .next t := by
    simpa [step_cons hag, runEvent, hostAct, hostWriteReg, runWord, decode, decodeCtrl, hv] using h
  rw [(exec_upStart_next_iff.1 hx).2]; rfl

theorem step_pkLenWrite {s t : State} {v : Nat} {rest : List Event}
    (hag : s.agenda = .host (.wrReg .pk .len v) :: rest) (h : step s = .next t) : t.pk = { s.pk with len := v } := by
  rw [step_cons hag] at h
  obtain ⟨k, hk, rfl⟩ := putPk_next_iff.1 h
  exact (writeLen_ok_iff.1 hk).2

theorem step_upLenWrite {s t : State} {v : Nat} {rest : List Event}
    (hag : s.agenda = .host (.wrReg .up .len v) :: rest) (h : step s = .next t) : t.up = { s.up with len := v } := by
  rw [step_cons hag] at h
  obtain ⟨k, hk, rfl⟩ := putUp_next_iff.1 h
  exact (writeLen_ok_iff.1 hk).2

/-! The position invariants. -/

theorem step_keeps_packerPosition {s t : State} (h : step s = .next t)
    (noWrite : ∀ ev rest, s.agenda = ev :: rest → ev.isLenWrite .pk = false) (hpos : PackerPosition s.pk) :
    PackerPosition t.pk := by
  unfold PackerPosition at hpos ⊢
  obtain ⟨hlen, hsame | ⟨l, consumed⟩⟩ | hzero := (step_packerChange h).pos_cases noWrite
  · omega
  · have := consumed.counts; omega
  · omega

theorem step_keeps_unpackerPosition {s t : State} (h : step s = .next t)
    (noWrite : ∀ ev rest, s.agenda = ev :: rest → ev.isLenWrite .up = false) (hpos : UnpackerPosition s.up) :
    UnpackerPosition t.up := by
  unfold UnpackerPosition at hpos ⊢
  obtain ⟨hlen, hsame | ⟨l, consumed⟩⟩ | hzero := (step_unpackerChange h).pos_cases noWrite
  · omega
  · have := consumed.counts; omega
  · omega

theorem packerPosition_begin (k : EngineState 8 16) : PackerPosition k.begin := ⟨Nat.zero_le _, .inl rfl⟩

theorem unpackerPosition_begin (k : EngineState 16 8) : UnpackerPosition k.begin := Nat.zero_le _

/-- Settles O56: only a write to `LEN` moves the bound without the position. -/
theorem positionInvariantsHoldUntilLenIsRewritten : Obligations.PositionInvariantsHoldUntilLenIsRewritten := by
  refine ⟨⟨⟨Nat.le_refl 0, .inl rfl⟩, Nat.le_refl 0⟩, fun s t hstep => ⟨?_, ?_, ?_, ?_, ?_, ?_⟩⟩
  · exact step_keeps_packerPosition hstep
  · exact step_keeps_unpackerPosition hstep
  · intro ev rest hag hev
    rw [step_pkStart hag hev hstep]; exact packerPosition_begin _
  · intro ev rest hag hev
    rw [step_upStart hag hev hstep]; exact unpackerPosition_begin _
  · intro v rest hag
    rw [step_pkLenWrite hag hstep]; exact Iff.rfl
  · intro v rest hag
    rw [step_upLenWrite hag hstep]; exact Iff.rfl

end Sys2Proof.Machine

namespace Sys2Proof.Machine

/-! The two engines do not see each other (20_memory.md R70). -/

section OtherEngine

variable {i : Instr} {s t : State}

theorem exec_pk_eq_withPk (he : i.engine = .pk) (h : exec i s = .next t) : t = s.withPk t.pk := by
  obtain ⟨-, k, rfl⟩ | ⟨he', -⟩ := exec_changes_own_engine h
  · rfl
  · simp [he] at he'

theorem exec_up_eq_withUp (he : i.engine = .up) (h : exec i s = .next t) : t = s.withUp t.up := by
  obtain ⟨he', -⟩ | ⟨-, k, rfl⟩ := exec_changes_own_engine h
  · simp [he] at he'
  · rfl

/-- The condition and the effect of a Packer instruction speak of the Packer and the parameters only. -/
theorem exec_pk_withUp (he : i.engine = .pk) (h : exec i s = .next t) (k : EngineState 16 8) :
    exec i (s.withUp k) = .next (t.withUp k) := by
  cases i with
  | pkDir b0 b1 =>
    obtain ⟨selected, rfl⟩ := exec_pkDir_next_iff.1 h
    exact exec_pkDir_next_iff.2 ⟨selected, rfl⟩
  | pkEsc b0 b1 =>
    obtain ⟨selected, rfl⟩ := exec_pkEsc_next_iff.1 h
    exact exec_pkEsc_next_iff.2 ⟨selected, rfl⟩
  | pkPad b0 =>
    obtain ⟨selected, rfl⟩ := exec_pkPad_next_iff.1 h
    exact exec_pkPad_next_iff.2 ⟨selected, rfl⟩
  | pkHalt =>
    obtain ⟨selected, rfl⟩ := exec_pkHalt_next_iff.1 h
    exact exec_pkHalt_next_iff.2 ⟨selected, rfl⟩
  | pkStart =>
    obtain ⟨legal, rfl⟩ := exec_pkStart_next_iff.1 h
    exact exec_pkStart_next_iff.2 ⟨legal, rfl⟩
  | upDir | upHalf | upHalt | upStart => cases he

/-- The condition and the effect of an Unpacker instruction speak of the Unpacker and the parameters only. -/
theorem exec_up_withPk (he : i.engine = .up) (h : exec i s = .next t) (k : EngineState 8 16) :
    exec i (s.withPk k) = .next (t.withPk k) := by
  cases i with
  | upDir u =>
    obtain ⟨selected, rfl⟩ := exec_upDir_next_iff.1 h
    exact exec_upDir_next_iff.2 ⟨selected, rfl⟩
  | upHalf u =>
    obtain ⟨selected, rfl⟩ := exec_upHalf_next_iff.1 h
    exact exec_upHalf_next_iff.2 ⟨selected, rfl⟩
  | upHalt =>
    obtain ⟨selected, rfl⟩ := exec_upHalt_next_iff.1 h
    exact exec_upHalt_next_iff.2 ⟨selected, rfl⟩
  | upStart =>
    obtain ⟨legal, rfl⟩ := exec_upStart_next_iff.1 h
    exact exec_upStart_next_iff.2 ⟨legal, rfl⟩
  | pkDir | pkEsc | pkPad | pkHalt | pkStart => cases he

end OtherEngine

/-- Settles O39: an instruction's condition and effect speak of its own engine and of the parameters only. -/
theorem enginesDoNotSeeEachOther : Obligations.EnginesDoNotSeeEachOther := by
  refine ⟨fun s t i k he h => ⟨?_, exec_pk_withUp he h k⟩, fun s t i k he h => ⟨?_, exec_up_withPk he h k⟩⟩
  · rw [exec_pk_eq_withPk he h]; rfl
  · rw [exec_up_eq_withUp he h]; rfl

/-- Settles O40: in either order the outcome is the start state with the Packer of one step and the Unpacker of the
other. -/
theorem stepsOfTheTwoEnginesCommute : Obligations.StepsOfTheTwoEnginesCommute := by
  intro s i j t t' hi hj hs hs'
  have ht : t = s.withPk t.pk := exec_pk_eq_withPk hi hs
  have ht' : t' = s.withUp t'.up := exec_up_eq_withUp hj hs'
  refine ⟨(s.withPk t.pk).withUp t'.up, ?_, ?_⟩
  · calc exec j t = exec j (s.withPk t.pk) := by rw [← ht]
      _ = .next (t'.withPk t.pk) := exec_up_withPk hj hs' t.pk
      _ = .next ((s.withPk t.pk).withUp t'.up) := by rw [ht']; rfl
  · calc exec i t' = exec i (s.withUp t'.up) := by rw [← ht']
      _ = .next (t.withUp t'.up) := exec_pk_withUp hi hs t'.up
      _ = .next ((s.withPk t.pk).withUp t'.up) := by rw [← ht]

/-! Units in byte-addressed storage (20_memory.md R55, R56). -/

@[simp] theorem serial_append (o : UnitSerial) (s t : List CodeUnit) :
    serial o (s ++ t) = serial o s ++ serial o t :=
  List.flatMap_append

/-- A direct pair stands in little-endian storage as it stood in the input. -/
theorem serial_le_packPair_direct {b0 b1 : Byte} (h : reserved b1 = false) :
    serial .le (packPair b0 b1) = [b0, b1] := by
  simp [packPair_direct h, serial, serialUnit]

/-- A buffer has no escape exactly when its first pair is direct and the rest has none. -/
theorem escapes_cons_cons_eq_zero_iff (b0 b1 : Byte) (rest : List Byte) :
    escapes (b0 :: b1 :: rest) = 0 ↔ reserved b1 = false ∧ escapes rest = 0 := by
  cases h : reserved b1 <;> simp [escapes, h]

/-- Settles O54, by induction on the pairs of the buffer. -/
theorem littleEndianStorageReproducesBytes : Obligations.LittleEndianStorageReproducesBytes := by
  intro buf heven hesc
  induction buf using pack.induct with
  | case1 => rfl
  | case2 b0 => simp at heven
  | case3 b0 b1 rest ih =>
    obtain ⟨hdirect, hrest⟩ := (escapes_cons_cons_eq_zero_iff b0 b1 rest).1 hesc
    have hevenRest : rest.length % 2 = 0 := by simp only [List.length_cons] at heven; omega
    rw [pack, serial_append, serial_le_packPair_direct hdirect, ih hevenRest hrest]; rfl

end Sys2Proof.Machine

namespace Sys2Proof.Machine

/-! What each word decodes to (30_encoding.md R84, R85, R89). -/

section Decode

variable {w : CodeUnit}

theorem decode_pair_direct (h : reserved (high w) = false) :
    decode (.pair w) = .ok (.pkDir (low w) (high w)) := by
  simp [decode, decodePair, h]

theorem decode_pair_escape (h : reserved (high w) = true) :
    decode (.pair w) = .ok (.pkEsc (low w) (high w)) := by
  simp [decode, decodePair, h]

theorem decode_tail_pad (h : high w = padByte) : decode (.tail w) = .ok (.pkPad (low w)) := by
  simp [decode, decodeTail, h]

theorem decode_tail_direct (h : reserved (high w) = false) (hpad : high w ≠ padByte) :
    decode (.tail w) = .ok (.pkDir (low w) (high w)) := by
  simp [decode, decodeTail, h, hpad]

theorem decode_tail_escape (h : reserved (high w) = true) :
    decode (.tail w) = .ok (.pkEsc (low w) (high w)) := by
  simp [decode, decodeTail, h]

theorem decode_unit_direct (h : reserved (high w) = false) : decode (.unit w) = .ok (.upDir w) := by
  simp [decode, decodeUnit, h]

theorem decode_unit_half (h : reserved (high w) = true) : decode (.unit w) = .ok (.upHalf w) := by
  simp [decode, decodeUnit, h]

/-- The second byte of a word is the pad exactly when the word is below 256. -/
theorem high_eq_padByte_iff (w : CodeUnit) : high w = padByte ↔ w.toNat < 256 := by
  have hpad : padByte.toNat = 0 := rfl
  rw [← BitVec.toNat_inj, high_toNat, hpad]
  omega

/-- A word whose second byte is the pad is its first byte completed by the pad. -/
theorem pairWord_low_pad (h : high w = padByte) : pairWord (low w) padByte = w := by
  rw [← h, pairWord_low_high]

end Decode

/-- Settles O30, one lemma of `Laws.RoundTrip` per constructor. -/
theorem decodeOfEncodeIsTheInstruction : Obligations.DecodeOfEncodeIsTheInstruction := by
  intro i
  cases i with
  | pkDir b0 b1 => exact Laws.RoundTrip.pkDir b0 b1
  | pkEsc b0 b1 => exact Laws.RoundTrip.pkEsc b0 b1
  | pkPad b0 => exact Laws.RoundTrip.pkPad b0
  | pkHalt => exact Laws.RoundTrip.pkHalt
  | pkStart => exact Laws.RoundTrip.pkStart
  | upDir u => exact Laws.RoundTrip.upDir u
  | upHalf u => exact Laws.RoundTrip.upHalf u
  | upHalt => exact Laws.RoundTrip.upHalt
  | upStart => exact Laws.RoundTrip.upStart

/-- Settles O31: in each format the second byte decides the instruction, and the two bytes give the word back. -/
theorem everyWordDecodesAndEncodesBack : Obligations.EveryWordDecodesAndEncodesBack := by
  refine ⟨fun p => ?_, fun u => ?_, fun p => ?_⟩
  · cases h : reserved (high p) with
    | false => exact ⟨_, decode_pair_direct h, by simp [Instr.wf, h], rfl, by simp [encode]⟩
    | true => exact ⟨_, decode_pair_escape h, h, rfl, by simp [encode]⟩
  · cases h : reserved (high u) with
    | false => exact ⟨_, decode_unit_direct h, by simp [Instr.wf, h], rfl, rfl⟩
    | true => exact ⟨_, decode_unit_half h, h, rfl, rfl⟩
  · by_cases hpad : high p = padByte
    · exact ⟨_, decode_tail_pad hpad, rfl, rfl, fun _ => by simp [encode, pairWord_low_pad hpad]⟩
    · have hlarge : ¬ p.toNat < 256 := fun hlt => hpad ((high_eq_padByte_iff p).2 hlt)
      cases h : reserved (high p) with
      | false => exact ⟨_, decode_tail_direct h hpad, by simp [Instr.wf, h], rfl, fun hlt => absurd hlt hlarge⟩
      | true => exact ⟨_, decode_tail_escape h, h, rfl, fun hlt => absurd hlt hlarge⟩

/-! The cubes of R87 look at the top five bits of a word. -/

/-- A cube of the top five bits, a mask and the value under it, as a cube of 16-bit words. -/
def cubeOfTopFive (c : BitVec 5 × BitVec 5) : CodeUnit × CodeUnit := (c.1 ++ 0#11, c.2 ++ 0#11)

/-- R87's six cubes, on the top five bits. -/
def topFiveCubes : List (BitVec 5 × BitVec 5) :=
  [(0b10000#5, 0b00000#5), (0b11000#5, 0b10000#5), (0b11110#5, 0b11000#5), (0b11111#5, 0b11010#5),
    (0b11100#5, 0b11100#5), (0b11111#5, 0b11011#5)]

/-- A word lies in such a cube exactly when its top five bits lie in the cube of five bits. -/
theorem mem_cubeOfTopFive_iff (w : CodeUnit) (c : BitVec 5 × BitVec 5) :
    w &&& (cubeOfTopFive c).1 = (cubeOfTopFive c).2 ↔ w.extractLsb' 11 5 &&& c.1 = c.2 := by
  have hw : w.extractLsb' 11 5 ++ w.extractLsb' 0 11 = w := by
    rw [BitVec.extractLsb'_append_extractLsb'_eq_extractLsb' (show 11 = 0 + 11 from rfl), BitVec.extractLsb'_eq_self]
  calc w &&& (c.1 ++ 0#11) = c.2 ++ 0#11
      ↔ (w.extractLsb' 11 5 ++ w.extractLsb' 0 11) &&& (c.1 ++ 0#11) = c.2 ++ 0#11 := by rw [hw]
    _ ↔ (w.extractLsb' 11 5 &&& c.1) ++ 0#11 = c.2 ++ 0#11 := by rw [BitVec.and_append, BitVec.and_zero]
    _ ↔ w.extractLsb' 11 5 &&& c.1 = c.2 := BitVec.append_left_inj _

/-- The five-bit cubes partition the 32 values of the top five bits. -/
theorem topFiveBits_in_one_cube : ∀ t : BitVec 5, (topFiveCubes.filter (fun c => t &&& c.1 == c.2)).length = 1 := by
  decide

/-- Settles O32: the 32 values of the top five bits lie in one cube each, and 11011 is the reserved range. -/
theorem sixCubesPartitionTheWords : Obligations.SixCubesPartitionTheWords := by
  intro w
  refine ⟨?_, fun h => ?_, fun h => ?_⟩
  · have hcubes : ∀ c, (w &&& (cubeOfTopFive c).1 == (cubeOfTopFive c).2) = (w.extractLsb' 11 5 &&& c.1 == c.2) :=
      fun c => by rw [Bool.eq_iff_iff, beq_iff_eq, beq_iff_eq, mem_cubeOfTopFive_iff]
    change ((topFiveCubes.map cubeOfTopFive).filter _).length = 1
    rw [List.filter_map, List.length_map, ← topFiveBits_in_one_cube (w.extractLsb' 11 5)]
    exact congrArg (fun p => (topFiveCubes.filter p).length) (funext hcubes)
  · have hres := (reserved_high_iff_mask w).2 h
    exact ⟨decode_pair_escape hres, decode_unit_half hres⟩
  · have hres : reserved (high w) = false := Bool.eq_false_iff.2 (mt (reserved_high_iff_mask w).1 h)
    exact ⟨decode_pair_direct hres, decode_unit_direct hres⟩

/-- Settles O33: closed words, evaluated. -/
theorem sampleWordsDecodeAsWritten : Obligations.SampleWordsDecodeAsWritten := by
  unfold Obligations.SampleWordsDecodeAsWritten
  decide

/-! What an engine fetches (30_encoding.md R82, R83). -/

section Fetch

variable {k : EngineState 8 16} {b0 b1 : Byte}

theorem fetchPair_inside (hpos : k.pos + 1 < k.len) (h0 : k.ibuf.read k.pos = some b0)
    (h1 : k.ibuf.read (k.pos + 1) = some b1) : fetchPair k = some (b0, b1) :=
  fetchPair_some_iff.2 ⟨by omega, h0, .inl ⟨hpos, h1⟩⟩

theorem fetchPair_last (hpos : k.pos + 1 = k.len) (h0 : k.ibuf.read k.pos = some b0) :
    fetchPair k = some (b0, padByte) :=
  fetchPair_some_iff.2 ⟨by omega, h0, .inr ⟨hpos, rfl⟩⟩

/-- Where a pair can be fetched the Packer decodes its word, at the odd tail as the word of the tail. -/
theorem fetchPk_of_fetchPair (h : fetchPair k = some (b0, b1)) :
    fetchPk k = .ok (if atOddTail k = true then .tail (pairWord b0 b1) else .pair (pairWord b0 b1)) := by
  obtain ⟨hlt, -, -⟩ := fetchPair_some_iff.1 h
  have hne : k.pos ≠ k.len := by omega
  have hle : ¬ k.len < k.pos := by omega
  simp only [fetchPk, hne, hle, h, if_false]
  split <;> rfl

theorem fetchPk_inside (hpos : k.pos + 1 < k.len) (h0 : k.ibuf.read k.pos = some b0)
    (h1 : k.ibuf.read (k.pos + 1) = some b1) : fetchPk k = .ok (.pair (pairWord b0 b1)) := by
  have hodd : ¬ atOddTail k = true := by rw [atOddTail_iff]; omega
  rw [fetchPk_of_fetchPair (fetchPair_inside hpos h0 h1), if_neg hodd]

theorem fetchPk_oddTail (hpos : k.pos + 1 = k.len) (hodd : k.len % 2 = 1) (h0 : k.ibuf.read k.pos = some b0) :
    fetchPk k = .ok (.tail (pairWord b0 padByte)) := by
  rw [fetchPk_of_fetchPair (fetchPair_last hpos h0), if_pos ((atOddTail_iff k).2 ⟨hodd, hpos⟩)]

theorem fetchUp_inside {k : EngineState 16 8} {u : CodeUnit} (hpos : k.pos < k.len)
    (hu : k.ibuf.read k.pos = some u) : fetchUp k = .ok (.unit u) := by
  have hne : k.pos ≠ k.len := by omega
  have hle : ¬ k.len < k.pos := by omega
  simp [fetchUp, hne, hle, fetchUnit_some_iff.2 ⟨hpos, hu⟩]

end Fetch

/-- Settles O7: the operand fetch, clause by clause. -/
theorem operandsAreTheInputAtPos : Obligations.OperandsAreTheInputAtPos :=
  ⟨fun _ _ _ => fetchPair_inside, fun _ _ => fetchPair_last, fun _ _ hpos hu => fetchUnit_some_iff.2 ⟨hpos, hu⟩⟩

/-- Settles O57: the fetched words by position, and their classification by the top five bits. -/
theorem operandWordsHaveSixteenBits : Obligations.OperandWordsHaveSixteenBits := by
  refine ⟨fun k b0 b1 hpos h0 h1 => ⟨_, fetchPk_inside hpos h0 h1, pairWord_toNat b0 b1⟩,
    fun k b0 hpos hodd h0 => ⟨_, fetchPk_oddTail hpos hodd h0, ?_, ?_, ?_⟩,
    fun k u hpos hu => fetchUp_inside hpos hu, fun w => ⟨fun h => ?_, fun h => ?_⟩⟩
  · rw [← padUnit_eq, padUnit_toNat]
  · simpa using decode_tail_pad (high_pairWord b0 padByte)
  · have hpair := decode_pair_direct (w := pairWord b0 padByte) (by simp)
    rw [low_pairWord, high_pairWord] at hpair
    exact hpair
  · have hres : reserved (high w) = true := (reserved_high_iff w).2 (by omega)
    exact ⟨decode_pair_escape hres, decode_tail_escape hres, decode_unit_half hres⟩
  · have hres : reserved (high w) = false := by rw [Bool.eq_false_iff, ne_eq, reserved_high_iff]; omega
    refine ⟨decode_pair_direct hres, fun hlt => decode_tail_pad ((high_eq_padByte_iff w).2 hlt), fun hge => ?_,
      decode_unit_direct hres⟩
    exact decode_tail_direct hres (by rw [ne_eq, high_eq_padByte_iff]; omega)

/-! The step an engine's fetch selects is the one it takes, and it completes (40_packer.md R115, R119, 41_unpacker.md
R145, R149). -/

/-- Everything the Packer can fetch. -/
theorem fetchPk_ok_cases {k : EngineState 8 16} {iw : InstrWord} (h : fetchPk k = .ok iw) :
    (k.pos = k.len ∧ iw = .atEnd .pk) ∨
    (∃ b0 b1, fetchPair k = some (b0, b1) ∧ iw = .pair (pairWord b0 b1)) ∨
    (∃ b0, atOddTail k = true ∧ k.ibuf.read k.pos = some b0 ∧ iw = .tail (pairWord b0 padByte)) := by
  by_cases hend : k.pos = k.len
  · exact .inl ⟨hend, by simpa [fetchPk, hend, eq_comm] using h⟩
  · cases hp : fetchPair k with
    | none => simp only [fetchPk, hend, hp, if_false] at h; split at h <;> cases h
    | some p =>
      obtain ⟨b0, b1⟩ := p
      rw [fetchPk_of_fetchPair hp] at h
      cases h
      by_cases hodd : atOddTail k = true
      · obtain ⟨-, h0, ⟨hlt, -⟩ | ⟨-, rfl⟩⟩ := fetchPair_some_iff.1 hp
        · have := ((atOddTail_iff k).1 hodd).2
          omega
        · exact .inr (.inr ⟨b0, hodd, h0, if_pos hodd⟩)
      · exact .inr (.inl ⟨b0, b1, rfl, if_neg hodd⟩)

/-- Everything the Unpacker can fetch. -/
theorem fetchUp_ok_cases {k : EngineState 16 8} {iw : InstrWord} (h : fetchUp k = .ok iw) :
    (k.pos = k.len ∧ iw = .atEnd .up) ∨ (∃ u, fetchUnit k = some u ∧ iw = .unit u) := by
  by_cases hend : k.pos = k.len
  · exact .inl ⟨hend, by simpa [fetchUp, hend, eq_comm] using h⟩
  · cases hu : fetchUnit k with
    | none => simp only [fetchUp, hend, hu, if_false] at h; split at h <;> cases h
    | some u =>
      obtain ⟨hpos, hread⟩ := fetchUnit_some_iff.1 hu
      rw [fetchUp_inside hpos hread] at h
      cases h
      exact .inr ⟨u, rfl, rfl⟩

/-- The instruction a running Packer fetches completes. -/
theorem exec_fetchedPk_completes {s : State} {iw : InstrWord} {i : Instr} (hrun : s.pk.run = true)
    (hf : fetchPk s.pk = .ok iw) (hd : decode iw = .ok i) : ∃ t, exec i s = .next t := by
  obtain ⟨hend, rfl⟩ | ⟨b0, b1, hp, rfl⟩ | ⟨b0, hodd, h0, rfl⟩ := fetchPk_ok_cases hf
  · cases hd
    exact ⟨_, exec_pkHalt_next_iff.2 ⟨⟨hrun, hend⟩, rfl⟩⟩
  · cases hres : reserved b1 with
    | false =>
      rw [decode_pair_direct (by simpa using hres), low_pairWord, high_pairWord] at hd
      cases hd
      exact ⟨_, exec_pkDir_next_iff.2 ⟨⟨hrun, hp, hres⟩, rfl⟩⟩
    | true =>
      rw [decode_pair_escape (by simpa using hres), low_pairWord, high_pairWord] at hd
      cases hd
      exact ⟨_, exec_pkEsc_next_iff.2 ⟨⟨hrun, hp, hres⟩, rfl⟩⟩
  · rw [decode_tail_pad (high_pairWord b0 padByte), low_pairWord] at hd
    cases hd
    exact ⟨_, exec_pkPad_next_iff.2 ⟨⟨hrun, hodd, h0⟩, rfl⟩⟩

/-- The instruction a running Unpacker fetches completes. -/
theorem exec_fetchedUp_completes {s : State} {iw : InstrWord} {i : Instr} (hrun : s.up.run = true)
    (hf : fetchUp s.up = .ok iw) (hd : decode iw = .ok i) : ∃ t, exec i s = .next t := by
  obtain ⟨hend, rfl⟩ | ⟨u, hu, rfl⟩ := fetchUp_ok_cases hf
  · cases hd
    exact ⟨_, exec_upHalt_next_iff.2 ⟨⟨hrun, hend⟩, rfl⟩⟩
  · cases hres : reserved (high u) with
    | false =>
      rw [decode_unit_direct hres] at hd
      cases hd
      exact ⟨_, exec_upDir_next_iff.2 ⟨⟨hrun, hu, hres⟩, rfl⟩⟩
    | true =>
      rw [decode_unit_half hres] at hd
      cases hd
      exact ⟨_, exec_upHalf_next_iff.2 ⟨⟨hrun, hu, hres⟩, rfl⟩⟩

/-- The instruction a running engine fetches completes. -/
theorem exec_fetched_completes {s : State} {e : Engine} {iw : InstrWord} {i : Instr} (hrun : s.running e = true)
    (hf : fetch e s = .ok iw) (hd : decode iw = .ok i) : ∃ t, exec i s = .next t := by
  cases e with
  | pk => exact exec_fetchedPk_completes hrun hf hd
  | up => exact exec_fetchedUp_completes hrun hf hd

/-- A running engine's move is the instruction it fetches. -/
theorem engineStep_eq_exec {s : State} {e : Engine} {iw : InstrWord} {i : Instr} (hrun : s.running e = true)
    (hf : fetch e s = .ok iw) (hd : decode iw = .ok i) : engineStep e s = exec i s := by
  simp [engineStep, hrun, hf, runWord, hd]

/-- With no event left the Packer moves if it runs, and the Unpacker otherwise (log 2). -/
theorem step_silent {s : State} {e : Engine} (hag : s.agenda = []) (hrun : s.running e = true)
    (hfirst : e = .pk ∨ s.pk.run = false) : step s = engineStep e s := by
  rw [step_nil hag]
  cases e with
  | pk => exact if_pos hrun
  | up =>
    have hrest : ¬ s.pk.run = true := by simpa using hfirst
    exact if_neg hrest

/-! A placed word is the word fetched next (logs 13, 14). -/

/-- The next step of `s` is the move of the running engine `e`, which fetches `iw`. -/
structure FetchesNext (s : State) (e : Engine) (iw : InstrWord) : Prop where
  silent : s.agenda = []
  running : s.running e = true
  first : e = .pk ∨ s.pk.run = false
  fetched : fetch e s = .ok iw

/-- What is fetched next is what the step runs, and it completes. -/
theorem FetchesNext.step_eq_exec {s : State} {e : Engine} {iw : InstrWord} {i : Instr} (h : FetchesNext s e iw)
    (hd : decode iw = .ok i) : step s = exec i s ∧ ∃ t, exec i s = .next t :=
  ⟨(step_silent h.silent h.running h.first).trans (engineStep_eq_exec h.running h.fetched hd),
    exec_fetched_completes h.running h.fetched hd⟩

theorem loadWord_pair_fetchesNext (s : State) (p : CodeUnit) : FetchesNext (s.loadWord (.pair p)) .pk (.pair p) where
  silent := rfl
  running := rfl
  first := .inl rfl
  fetched := by
    have h0 : (((s.pk.ibuf.write 0 (low p)).write 1 (high p)).read 0) = some (low p) := by
      rw [read_write_other _ _ (by decide), read_write_same]
    have h1 : (((s.pk.ibuf.write 0 (low p)).write 1 (high p)).read 1) = some (high p) := read_write_same _ _ _
    have hf := fetchPk_inside (k := (s.loadWord (.pair p)).pk) Nat.one_lt_two h0 h1
    rwa [pairWord_low_high] at hf

theorem loadWord_tail_fetchesNext (s : State) {p : CodeUnit} (hpad : high p = padByte) :
    FetchesNext (s.loadWord (.tail p)) .pk (.tail p) where
  silent := rfl
  running := rfl
  first := .inl rfl
  fetched := by
    have hf := fetchPk_oddTail (k := (s.loadWord (.tail p)).pk) rfl rfl (read_write_same s.pk.ibuf 0 (low p))
    rwa [pairWord_low_pad hpad] at hf

theorem loadWord_unit_fetchesNext (s : State) (u : CodeUnit) : FetchesNext (s.loadWord (.unit u)) .up (.unit u) where
  silent := rfl
  running := rfl
  first := .inr rfl
  fetched := fetchUp_inside (k := (s.loadWord (.unit u)).up) Nat.one_pos (read_write_same s.up.ibuf 0 u)

/-- What the table's numbering names: a pair, an odd tail whose second byte is the pad, or a unit. -/
theorem tableWord_cases {nbits w : Nat} {iw : InstrWord} (h : tableWord nbits w = some iw) :
    (∃ p, iw = .pair p) ∨ (∃ p, high p = padByte ∧ iw = .tail p) ∨ (∃ u, iw = .unit u) := by
  unfold tableWord at h
  split at h
  · cases h
  split at h
  · cases h
    exact .inr (.inl ⟨_, (high_eq_padByte_iff _).2 (by rw [BitVec.toNat_ofNat]; omega), rfl⟩)
  split at h
  · cases h; exact .inl ⟨_, rfl⟩
  split at h
  · cases h; exact .inl ⟨_, rfl⟩
  split at h
  · cases h; exact .inr (.inr ⟨_, rfl⟩)
  · cases h

theorem loadWord_tableWord_fetchesNext (s : State) {nbits w : Nat} {iw : InstrWord} (h : tableWord nbits w = some iw) :
    ∃ e, FetchesNext (s.loadWord iw) e iw := by
  obtain ⟨p, rfl⟩ | ⟨p, hpad, rfl⟩ | ⟨u, rfl⟩ := tableWord_cases h
  · exact ⟨_, loadWord_pair_fetchesNext s p⟩
  · exact ⟨_, loadWord_tail_fetchesNext s hpad⟩
  · exact ⟨_, loadWord_unit_fetchesNext s u⟩

/-- The instruction of a table word is the one its word decodes to. -/
theorem decodeTableWord_some {nbits w : Nat} {i : Instr} (h : decodeTableWord nbits w = some i) :
    ∃ iw, tableWord nbits w = some iw ∧ decode iw = .ok i := by
  unfold decodeTableWord at h
  cases ht : tableWord nbits w with
  | none => simp [ht] at h
  | some iw =>
    cases hd : decode iw with
    | ok j => exact ⟨iw, rfl, by simpa [ht, hd] using h⟩
    | error r => simp [ht, hd] at h

/-- Settles O34: the placed word is fetched next, and what is fetched is run and completes. -/
theorem placedTableWordIsRunNext : Obligations.PlacedTableWordIsRunNext := by
  intro s nbits w i h
  obtain ⟨iw, ht, hd⟩ := decodeTableWord_some h
  have hload : s.withFetchWord nbits w = s.loadWord iw := by simp [State.withFetchWord, ht]
  obtain ⟨e, hnext⟩ := loadWord_tableWord_fetchesNext s ht
  rw [hload]
  exact hnext.step_eq_exec hd

end Sys2Proof.Machine

namespace Sys2Proof.Machine

/-! The move of a running Packer is the step its dispatch selects (40_packer.md R115, R120). -/

section PackerMove

variable {s : State} {b0 b1 : Byte}

/-- At the odd tail `PK.PAD b0` and `PK.DIR b0, 0x00` are two names of one step (R120). -/
theorem exec_pkPad_eq_pkDir (hodd : atOddTail s.pk = true) (b0 : Byte) :
    exec (.pkPad b0) s = exec (.pkDir b0 padByte) s := by
  have hlast : s.pk.pos + 1 = s.pk.len := ((atOddTail_iff _).1 hodd).2
  have hmin : min (s.pk.pos + 2) s.pk.len = s.pk.len := Nat.min_eq_right (by omega)
  have hfetch : fetchPair s.pk = some (b0, padByte) ↔ s.pk.ibuf.read s.pk.pos = some b0 :=
    ⟨fun h => (fetchPair_some_iff.1 h).2.1, fetchPair_last hlast⟩
  simp only [exec, execPkPad, execPkDir, padUnit_eq, hmin]
  exact if_congr (by simp [hodd, hfetch]) rfl rfl

theorem engineStep_at_rest {e : Engine} (hrest : s.running e = false) : engineStep e s = .next s := by
  simp [engineStep, hrest]

/-- A turn of an engine is its move, once the turn is taken off the agenda. -/
theorem step_turn {e : Engine} {rest : List Event} (hag : s.agenda = .engine e :: rest) :
    step s = engineStep e (s.withAgenda rest) :=
  step_cons hag

theorem engineStep_pk_atEnd (hrun : s.pk.run = true) (hend : s.pk.pos = s.pk.len) :
    engineStep .pk s = exec .pkHalt s :=
  engineStep_eq_exec hrun (iw := .atEnd .pk) (by simp [fetch, fetchPk, hend]) rfl

theorem engineStep_pk_escape (hrun : s.pk.run = true) (hf : fetchPair s.pk = some (b0, b1))
    (hres : reserved b1 = true) : engineStep .pk s = exec (.pkEsc b0 b1) s := by
  have hinside : s.pk.pos + 2 ≤ s.pk.len := fetchPair_reserved_inside hf hres
  have hodd : ¬ atOddTail s.pk = true := by rw [atOddTail_iff]; omega
  refine engineStep_eq_exec hrun ((fetchPk_of_fetchPair hf).trans (by rw [if_neg hodd])) ?_
  rw [decode_pair_escape (by simpa using hres), low_pairWord, high_pairWord]

/-- At the odd tail the word fetched is named `PK.PAD`, which is the same step. -/
theorem engineStep_pk_direct (hrun : s.pk.run = true) (hf : fetchPair s.pk = some (b0, b1))
    (hres : reserved b1 = false) : engineStep .pk s = exec (.pkDir b0 b1) s := by
  have hfetch := fetchPk_of_fetchPair hf
  by_cases hodd : atOddTail s.pk = true
  · obtain ⟨-, -, ⟨hlt, -⟩ | ⟨-, rfl⟩⟩ := fetchPair_some_iff.1 hf
    · have := ((atOddTail_iff _).1 hodd).2
      omega
    · rw [if_pos hodd] at hfetch
      rw [← exec_pkPad_eq_pkDir hodd]
      refine engineStep_eq_exec hrun hfetch ?_
      rw [decode_tail_pad (high_pairWord b0 padByte), low_pairWord]
  · rw [if_neg hodd] at hfetch
    refine engineStep_eq_exec hrun hfetch ?_
    rw [decode_pair_direct (by simpa using hres), low_pairWord, high_pairWord]

/-- On a pair the Packer emits its packing and moves past it (R110, R112, R113). -/
theorem engineStep_pk_pair (hrun : s.pk.run = true) (hf : fetchPair s.pk = some (b0, b1)) :
    engineStep .pk s =
      .next (s.withPk ((s.pk.emitAll (packPair b0 b1)).jump (min (s.pk.pos + 2) s.pk.len))) := by
  cases hres : reserved b1 with
  | false =>
    rw [engineStep_pk_direct hrun hf hres, packPair_direct hres]
    exact exec_pkDir_next_iff.2 ⟨⟨hrun, hf, hres⟩, rfl⟩
  | true =>
    rw [engineStep_pk_escape hrun hf hres, packPair_escape hres,
      Nat.min_eq_left (fetchPair_reserved_inside hf hres)]
    exact exec_pkEsc_next_iff.2 ⟨⟨hrun, hf, hres⟩, rfl⟩

end PackerMove

/-! The move of a running Unpacker is the step its dispatch selects (41_unpacker.md R145). -/

section UnpackerMove

variable {s : State} {u : CodeUnit}

theorem engineStep_up_atEnd (hrun : s.up.run = true) (hend : s.up.pos = s.up.len) :
    engineStep .up s = exec .upHalt s :=
  engineStep_eq_exec (e := .up) hrun (iw := .atEnd .up) (by simp [fetch, fetchUp, hend]) rfl

theorem fetchUp_of_fetchUnit {k : EngineState 16 8} (hf : fetchUnit k = some u) : fetchUp k = .ok (.unit u) := by
  obtain ⟨hpos, hread⟩ := fetchUnit_some_iff.1 hf
  exact fetchUp_inside hpos hread

theorem engineStep_up_half (hrun : s.up.run = true) (hf : fetchUnit s.up = some u)
    (hres : reserved (high u) = true) : engineStep .up s = exec (.upHalf u) s :=
  engineStep_eq_exec (e := .up) hrun (fetchUp_of_fetchUnit hf) (decode_unit_half hres)

theorem engineStep_up_direct (hrun : s.up.run = true) (hf : fetchUnit s.up = some u)
    (hres : reserved (high u) = false) : engineStep .up s = exec (.upDir u) s :=
  engineStep_eq_exec (e := .up) hrun (fetchUp_of_fetchUnit hf) (decode_unit_direct hres)

end UnpackerMove

/-! An engine has at most one step, and none at rest (40_packer.md R115, 41_unpacker.md R145). -/

/-- An instruction that completes is the move of its running engine, or a START of its resting engine. -/
theorem exec_next_cases {i : Instr} {s t : State} (h : exec i s = .next t) :
    (s.running i.engine = true ∧ engineStep i.engine s = .next t) ∨
      (s.running i.engine = false ∧ (i = .pkStart ∨ i = .upStart)) := by
  cases i with
  | pkDir b0 b1 =>
    obtain ⟨hrun, hf, hres⟩ := (exec_pkDir_next_iff.1 h).1
    exact .inl ⟨hrun, (engineStep_pk_direct hrun hf hres).trans h⟩
  | pkEsc b0 b1 =>
    obtain ⟨hrun, hf, hres⟩ := (exec_pkEsc_next_iff.1 h).1
    exact .inl ⟨hrun, (engineStep_pk_escape hrun hf hres).trans h⟩
  | pkPad b0 =>
    obtain ⟨hrun, hodd, hread⟩ := (exec_pkPad_next_iff.1 h).1
    have hf := fetchPair_last ((atOddTail_iff _).1 hodd).2 hread
    rw [exec_pkPad_eq_pkDir hodd] at h
    exact .inl ⟨hrun, (engineStep_pk_direct hrun hf reserved_pad).trans h⟩
  | pkHalt =>
    obtain ⟨hrun, hend⟩ := (exec_pkHalt_next_iff.1 h).1
    exact .inl ⟨hrun, (engineStep_pk_atEnd hrun hend).trans h⟩
  | pkStart => exact .inr ⟨(exec_pkStart_next_iff.1 h).1.1, .inl rfl⟩
  | upDir u =>
    obtain ⟨hrun, hf, hres⟩ := (exec_upDir_next_iff.1 h).1
    exact .inl ⟨hrun, (engineStep_up_direct hrun hf hres).trans h⟩
  | upHalf u =>
    obtain ⟨hrun, hf, hres⟩ := (exec_upHalf_next_iff.1 h).1
    exact .inl ⟨hrun, (engineStep_up_half hrun hf hres).trans h⟩
  | upHalt =>
    obtain ⟨hrun, hend⟩ := (exec_upHalt_next_iff.1 h).1
    exact .inl ⟨hrun, (engineStep_up_atEnd hrun hend).trans h⟩
  | upStart => exact .inr ⟨(exec_upStart_next_iff.1 h).1.1, .inr rfl⟩

/-- The block has no faults (60_exceptions.md R220), so what does not complete is refused. -/
theorem exec_refused_of_not_next {i : Instr} {s : State} (h : ∀ t, exec i s ≠ .next t) :
    ∃ r, exec i s = .refused r := by
  cases hx : exec i s with
  | next t => exact absurd hx (h t)
  | fault r => cases r
  | refused r => exact ⟨r, rfl⟩

/-- A resting engine refuses every instruction but START (log 9). -/
theorem exec_refused_at_rest {i : Instr} {s : State} (hrest : s.running i.engine = false) (hpk : i ≠ .pkStart)
    (hup : i ≠ .upStart) : ∃ r, exec i s = .refused r := by
  refine exec_refused_of_not_next fun t h => ?_
  obtain ⟨hrun, -⟩ | ⟨-, rfl | rfl⟩ := exec_next_cases h
  · simp [hrest] at hrun
  · exact hpk rfl
  · exact hup rfl

/-- Settles O18: while its engine runs, an instruction that completes is the engine's move; at rest it is START. -/
theorem engineHasOneOutcome : Obligations.EngineHasOneOutcome := by
  intro s i j t t' hij hi hj
  obtain ⟨hrun, ht⟩ | ⟨hrest, hstart⟩ := exec_next_cases hi <;>
    obtain ⟨hrun', ht'⟩ | ⟨hrest', hstart'⟩ := exec_next_cases hj
  · rw [hij, ht'] at ht
    simpa [eq_comm] using ht
  · simp [hij, hrest'] at hrun
  · simp [hij, hrun'] at hrest
  · have hsame : i = j := by
      obtain ⟨rfl | rfl, rfl | rfl⟩ := And.intro hstart hstart' <;> simp [Instr.engine] at hij ⊢
    rw [hsame, hj] at hi
    simpa [eq_comm] using hi

/-- Settles O19: an instruction that completes needs a running engine or is a START, and a resting engine's move is
none. -/
theorem engineAtRestHasNoStep : Obligations.EngineAtRestHasNoStep := by
  refine ⟨fun s i => exec_refused_at_rest, fun s e rest hrest hag => ?_, fun s hpk hup hag => ?_⟩
  · rw [step_turn hag]
    exact engineStep_at_rest (s := s.withAgenda rest) hrest
  · rw [step_nil hag, runSilent, if_neg (by simp [hpk])]
    exact engineStep_at_rest hup

/-- Settles O20: a turn is the Packer's move, once the turn is taken off the agenda. -/
theorem packerDispatchesOnPosAndSecondByte : Obligations.PackerDispatchesOnPosAndSecondByte := by
  intro s rest hag
  rw [step_turn hag]
  exact ⟨fun hrest => engineStep_at_rest (e := .pk) hrest,
    fun hrun hend => engineStep_pk_atEnd (s := s.withAgenda rest) hrun hend,
    fun _ b1 hrun hf hlo hhi =>
      engineStep_pk_escape (s := s.withAgenda rest) hrun hf ((reserved_iff b1).2 ⟨hlo, hhi⟩),
    fun _ b1 hrun hf hout => engineStep_pk_direct (s := s.withAgenda rest) hrun hf ((not_reserved_iff b1).2 hout)⟩

/-- Settles O22: a turn, and a step with no event left, is the move of the engine, which runs the word it fetches. -/
theorem stepRunsTheDecodedInstruction : Obligations.StepRunsTheDecodedInstruction := by
  intro s e w i hrun hf hd
  refine ⟨fun hag hfirst => (step_silent hag hrun hfirst).trans (engineStep_eq_exec hrun hf hd), fun rest hag => ?_⟩
  rw [step_turn hag]
  exact engineStep_eq_exec (s := s.withAgenda rest) hrun hf hd

end Sys2Proof.Machine

namespace Sys2Proof.Machine

/-! What emitting one or two elements and moving on does to an engine, and its frame (00_scope.md R11). -/

section Emit

variable {wi wo : Nat} (k : EngineState wi wo) (v v' : BitVec wo) (p : Nat)

theorem emit_jump_sameInput : SameInput k ((k.emit v).jump p) := ⟨rfl, fun _ => rfl⟩

theorem emit_emit_jump_sameInput : SameInput k (((k.emit v).emit v').jump p) := ⟨rfl, fun _ => rfl⟩

theorem emit_jump_sameOutputBut : SameOutputBut [k.olen] k ((k.emit v).jump p) :=
  fun _ hj => read_write_other k.obuf v (List.ne_of_not_mem_cons hj)

theorem emit_emit_jump_read_first : (((k.emit v).emit v').jump p).obuf.read k.olen = some v := by
  simp [read_write_other _ _ (Nat.ne_of_lt (Nat.lt_succ_self k.olen))]

theorem emit_emit_jump_read_second : (((k.emit v).emit v').jump p).obuf.read (k.olen + 1) = some v' := by
  simp

theorem emit_emit_jump_sameOutputBut : SameOutputBut [k.olen, k.olen + 1] k (((k.emit v).emit v').jump p) := by
  intro j hj
  obtain ⟨hfirst, hsecond⟩ : j ≠ k.olen ∧ j ≠ k.olen + 1 := by simpa using hj
  simp [read_write_other _ _ hfirst, read_write_other _ _ hsecond]

end Emit

theorem sameButPk_withPk (s : State) (k : EngineState 8 16) : SameButPk s (s.withPk k) := ⟨rfl, rfl, rfl, rfl⟩

/-! The Packer's instructions one by one (40_packer.md R112 to R114, R120). -/

/-- Settles O8: the high byte of the emitted unit is `b1`, which is not reserved. -/
theorem pkDirPacksPairIntoOneUnit : Obligations.PkDirPacksPairIntoOneUnit := by
  intro s b0 b1 hrun hf hres
  refine ⟨_, pairWord b0 b1, exec_pkDir_next_iff.2 ⟨⟨hrun, hf, hres⟩, rfl⟩, pairWord_toNat b0 b1, ?_, ?_,
    read_write_same _ _ _, emit_jump_sameOutputBut _ _ _, rfl, rfl, hrun, emit_jump_sameInput _ _ _,
    sameButPk_withPk _ _⟩
  · rw [decode_pair_direct (by simpa using hres), low_pairWord, high_pairWord]
  · rw [← reserved_high_iff, high_pairWord, hres]
    exact Bool.false_ne_true

/-- Settles O9: the pad is not reserved, so both bytes are in the input. -/
theorem pkEscPacksPairIntoTwoUnits : Obligations.PkEscPacksPairIntoTwoUnits := by
  intro s b0 b1 hrun hf hres
  have hb0 := b0.isLt
  obtain ⟨hlo, hhi⟩ := (reserved_iff b1).1 hres
  have hu0 := escHi_toNat b0
  have hu1 := escLo_toNat b1
  refine ⟨_, pairWord b0 b1, escHi b0, escLo b1, exec_pkEsc_next_iff.2 ⟨⟨hrun, hf, hres⟩, rfl⟩,
    pairWord_toNat b0 b1, ?_, hu0, hu1, by omega, by omega, by omega,
    emit_emit_jump_read_first _ _ _ _, emit_emit_jump_read_second _ _ _ _, emit_emit_jump_sameOutputBut _ _ _ _,
    rfl, rfl, fetchPair_reserved_inside hf hres, hrun, emit_emit_jump_sameInput _ _ _ _, sameButPk_withPk _ _⟩
  rw [decode_pair_escape (by simpa using hres), low_pairWord, high_pairWord]

/-- An odd buffer packs as the buffer completed by the pad (40_packer.md R120). -/
theorem pack_append_pad (buf : List Byte) (hodd : buf.length % 2 = 1) : pack buf = pack (buf ++ [padByte]) := by
  induction buf using pack.induct with
  | case1 => simp at hodd
  | case2 b0 => simp [pack]
  | case3 b0 b1 rest ih =>
    have hrest : rest.length % 2 = 1 := by simp only [List.length_cons] at hodd; omega
    simp [pack, ih hrest]

/-- Settles O10: the odd tail is the case of O8 with the pad as second byte. -/
theorem pkPadPacksTheOddTail : Obligations.PkPadPacksTheOddTail := by
  refine ⟨pack_append_pad, rfl, fun s b0 hrun hodd hlast hread => ?_⟩
  have hf : fetchPair s.pk = some (b0, padByte) := fetchPair_last hlast hread
  have hmin : min (s.pk.pos + 2) s.pk.len = s.pk.len := Nat.min_eq_right (by omega)
  have hpad : padByte.toNat = 0 := rfl
  obtain ⟨t, u, hexec, hu, -, -, hread', hout, holen, hpos, hframe⟩ :=
    pkDirPacksPairIntoOneUnit s b0 padByte hrun hf reserved_pad
  refine ⟨hf, reserved_pad, t, u, ?_, hexec, by omega, hread', hout, holen, hpos.trans hmin, hframe⟩
  rw [exec_pkPad_eq_pkDir ((atOddTail_iff _).2 ⟨hodd, hlast⟩)]
  exact hexec

/-- At the end of a run the output is the packing of the whole input (R118). -/
theorem PackerInv.output_packs_all {cfg : Config} {k : EngineState 8 16} (h : PackerInv cfg k) (running : k.run = true)
    (atEnd : k.pos = k.len) : k.obuf.first k.olen = (k.ibuf.first k.len).map pack := by
  obtain ⟨buf, hbuf⟩ := Option.isSome_iff_exists.1 (h.input_written running)
  have hlen : buf.length = k.pos := (first_length hbuf).trans atEnd.symm
  rw [h.output_packs running, hbuf, Option.map_some, Option.map_some, ← hlen, List.take_length]

/-- Settles O11: only `RUN` changes, and a resting Packer refuses all but START. -/
theorem pkHaltEndsTheOperation : Obligations.PkHaltEndsTheOperation := by
  intro s hrun hend
  refine ⟨_, exec_pkHalt_next_iff.2 ⟨⟨hrun, hend⟩, rfl⟩, rfl, rfl, rfl, ⟨rfl, fun _ => rfl⟩, fun _ _ => rfl,
    sameButPk_withPk _ _, fun hinv => hinv.pk.output_packs_all hrun hend, fun i hi hstart => ?_⟩
  have hup : i ≠ .upStart := by rintro rfl; cases hi
  exact exec_refused_at_rest (by rw [hi]; rfl) hstart hup

/-! `pack` by the indices of the buffer (40_packer.md R110). -/

theorem pack_eq_flatMap_range (buf : List Byte) :
    pack buf = (List.range ((buf.length + 1) / 2)).flatMap
      (fun k => packPair (buf[2 * k]?.getD padByte) (buf[2 * k + 1]?.getD padByte)) := by
  induction buf using pack.induct with
  | case1 => rfl
  | case2 b0 => simp [pack]
  | case3 b0 b1 rest ih =>
    have hcount : ((b0 :: b1 :: rest).length + 1) / 2 = (rest.length + 1) / 2 + 1 := by
      simp only [List.length_cons]; omega
    rw [hcount, List.range_succ_eq_map, List.flatMap_cons, List.flatMap_map, pack, ih]
    rfl

/-- Settles O43, by induction on the pairs of the buffer. -/
theorem packIsPairByPair : Obligations.PackIsPairByPair := by
  refine ⟨pack_eq_flatMap_range, fun b0 b1 => ?_⟩
  cases hres : reserved b1 with
  | false =>
    have hout : ¬ (0xD8 ≤ b1.toNat ∧ b1.toNat ≤ 0xDF) := by rw [← reserved_iff, hres]; exact Bool.false_ne_true
    rw [if_neg hout, packPair_direct hres, List.map_singleton, pairWord_toNat]
  | true =>
    rw [if_pos ((reserved_iff b1).1 hres), packPair_escape hres, List.map_cons, List.map_singleton, escHi_toNat,
      escLo_toNat]

/-! A run of the Packer with the host silent (40_packer.md R116, R118, 42_control.md R179, R181). -/

/-- A write of START to the Packer is the instruction, once the write is taken off the agenda. -/
theorem step_ctrl_eq_exec_pkStart {s : State} {v : Nat} {rest : List Event}
    (hag : s.agenda = .host (.wrReg .pk .ctrl v) :: rest) (hv : v % 2 = 1) :
    step s = exec .pkStart (s.withAgenda rest) := by
  simp [step_cons hag, runEvent, hostAct, hostWriteReg, runWord, decode, decodeCtrl, hv]

/-- A running Packer inside its input has a pair to fetch: every element of the input holds a value (R177). -/
theorem PackerInv.exists_fetchPair {cfg : Config} {k : EngineState 8 16} (h : PackerInv cfg k) (running : k.run = true)
    (hlt : k.pos < k.len) : ∃ b0 b1, fetchPair k = some (b0, b1) := by
  have hwritten := (first_isSome_iff _ _).1 (h.input_written running)
  obtain ⟨b0, h0⟩ := hwritten k.pos hlt
  obtain hlast | hinside : k.pos + 1 = k.len ∨ k.pos + 1 < k.len := by omega
  · exact ⟨b0, padByte, fetchPair_last hlast h0⟩
  · obtain ⟨b1, h1⟩ := hwritten (k.pos + 1) hinside
    exact ⟨b0, b1, fetchPair_inside hinside h0 h1⟩

/-- `t` is the block after START in `s` and `n` data steps of the Packer. -/
structure PackerRunning (s : State) (n : Nat) (t : State) : Prop where
  inv : BlockInv t
  silent : t.agenda = []
  running : t.pk.run = true
  pos : t.pk.pos = min (2 * n) s.pk.len
  len : t.pk.len = s.pk.len
  ibuf : t.pk.ibuf = s.pk.ibuf
  up : t.up = s.up

theorem PackerRunning.start {s : State} {v : Nat} (hinv : BlockInv s) (hrest : s.pk.run = false)
    (hag : s.agenda = [.host (.wrReg .pk .ctrl v)]) (hv : v % 2 = 1)
    (hwritten : (s.pk.ibuf.first s.pk.len).isSome = true) : ∃ t, step s = .next t ∧ PackerRunning s 0 t := by
  have hstep : step s = .next ((s.withAgenda []).withPk s.pk.begin) :=
    (step_ctrl_eq_exec_pkStart hag hv).trans
      (exec_pkStart_next_iff.2 ⟨⟨hrest, hinv.pk.len_legal, hwritten⟩, rfl⟩)
  exact ⟨_, hstep,
    { inv := stepKeepsInvariant _ _ hinv hstep
      silent := rfl
      running := rfl
      pos := by simp
      len := rfl
      ibuf := rfl
      up := rfl }⟩

theorem PackerRunning.data {s t : State} {n : Nat} (h : PackerRunning s n t) (hn : n < (s.pk.len + 1) / 2) :
    ∃ u, step t = .next u ∧ PackerRunning s (n + 1) u := by
  have hpos := h.pos
  have hlen := h.len
  obtain ⟨b0, b1, hf⟩ := h.inv.pk.exists_fetchPair h.running (by omega)
  have hstep := (step_silent (e := .pk) h.silent h.running (.inl rfl)).trans (engineStep_pk_pair h.running hf)
  exact ⟨_, hstep,
    { inv := stepKeepsInvariant _ _ h.inv hstep
      silent := h.silent
      running := by simpa using h.running
      pos := by simp only [withPk_pk, jump_pos]; omega
      len := by simpa using hlen
      ibuf := by simpa using h.ibuf
      up := h.up }⟩

/-- The Packer halts after the last data step, its output complete. -/
theorem PackerRunning.halt {s t : State} {n : Nat} {buf : List Byte} (h : PackerRunning s n t)
    (hn : s.pk.len ≤ 2 * n) (hbuf : s.pk.ibuf.first s.pk.len = some buf) :
    step t = .next (t.withPk t.pk.halt) ∧ t.pk.pos = s.pk.len ∧ t.pk.obuf.first t.pk.olen = some (pack buf) := by
  have hpos : t.pk.pos = s.pk.len := h.pos.trans (Nat.min_eq_right hn)
  have hend : t.pk.pos = t.pk.len := hpos.trans h.len.symm
  refine ⟨?_, hpos, ?_⟩
  · rw [step_silent (e := .pk) h.silent h.running (.inl rfl), engineStep_pk_atEnd h.running hend]
    exact exec_pkHalt_next_iff.2 ⟨⟨h.running, hend⟩, rfl⟩
  · rw [h.inv.pk.output_packs_all h.running hend, h.len, h.ibuf, hbuf, Option.map_some]

/-- One step more at the end of a run of steps. -/
theorem run_snoc {n : Nat} {s t u : State} (hrun : core.run n s = .next t) (hstep : step t = .next u) :
    core.run (n + 1) s = .next u := by
  rw [run_add hrun, run_step (n := 0) hstep, run_zero]

theorem run_packerRunning {s : State} {v : Nat} (hinv : BlockInv s) (hrest : s.pk.run = false)
    (hag : s.agenda = [.host (.wrReg .pk .ctrl v)]) (hv : v % 2 = 1)
    (hwritten : (s.pk.ibuf.first s.pk.len).isSome = true) {n : Nat} (hn : n ≤ (s.pk.len + 1) / 2) :
    ∃ t : State, core.run (n + 1) s = .next t ∧ PackerRunning s n t := by
  induction n with
  | zero =>
    obtain ⟨t, hstep, ht⟩ := PackerRunning.start hinv hrest hag hv hwritten
    exact ⟨t, run_snoc (run_zero s) hstep, ht⟩
  | succ n ih =>
    obtain ⟨t, hrun, ht⟩ := ih (Nat.le_of_succ_le hn)
    obtain ⟨u, hstep, hu⟩ := ht.data hn
    exact ⟨u, run_snoc hrun hstep, hu⟩

/-- Settles O41, by induction on the data steps: `n` of them pass `2n` bytes, and the invariant gives the output. -/
theorem packRunComputesPack : Obligations.PackRunComputesPack := by
  intro s buf v hinv hrest hag hv hbuf
  have hrun : ∀ n, n ≤ (s.pk.len + 1) / 2 → ∃ t : State, core.run (n + 1) s = .next t ∧ PackerRunning s n t :=
    fun n hn => run_packerRunning hinv hrest hag hv (by simp [hbuf]) hn
  constructor
  · obtain ⟨t, hreach, ht⟩ := hrun _ le_rfl
    obtain ⟨hstep, hpos, hout⟩ := ht.halt (by omega) hbuf
    exact ⟨_, run_snoc hreach hstep, rfl, hpos, ht.len, ht.ibuf, (first_length hout).symm, hout, ht.up⟩
  · intro n hn
    obtain ⟨t, hreach, ht⟩ := hrun n hn
    exact ⟨t, hreach, ht.running⟩

end Sys2Proof.Machine

namespace Sys2Proof.Machine

/-! A run of the Unpacker with the host silent (41_unpacker.md R146, R148, 42_control.md R179, R181). -/

theorem unpackUnit_eq_directBytes {u : CodeUnit} (h : reserved (high u) = false) (o : DirectOrder) :
    unpackUnit o u = [(directBytes o u).1, (directBytes o u).2] := by
  rw [unpackUnit_direct h]
  cases o <;> rfl

/-- On a unit the Unpacker emits its unpacking and moves past it (R140, R142, R143). -/
theorem engineStep_up_unit {s : State} {u : CodeUnit} (hrun : s.up.run = true) (hf : fetchUnit s.up = some u) :
    engineStep .up s =
      .next (s.withUp ((s.up.emitAll (unpackUnit s.cfg.directOrder u)).jump (s.up.pos + 1))) := by
  cases hres : reserved (high u) with
  | false =>
    rw [engineStep_up_direct hrun hf hres, unpackUnit_eq_directBytes hres]
    exact exec_upDir_next_iff.2 ⟨⟨hrun, hf, hres⟩, rfl⟩
  | true =>
    rw [engineStep_up_half hrun hf hres, unpackUnit_half hres]
    exact exec_upHalf_next_iff.2 ⟨⟨hrun, hf, hres⟩, rfl⟩

/-- A write of START to the Unpacker is the instruction, once the write is taken off the agenda. -/
theorem step_ctrl_eq_exec_upStart {s : State} {v : Nat} {rest : List Event}
    (hag : s.agenda = .host (.wrReg .up .ctrl v) :: rest) (hv : v % 2 = 1) :
    step s = exec .upStart (s.withAgenda rest) := by
  simp [step_cons hag, runEvent, hostAct, hostWriteReg, runWord, decode, decodeCtrl, hv]

/-- A running Unpacker inside its input has a unit to fetch: every element of the input holds a value (R177). -/
theorem UnpackerInv.exists_fetchUnit {cfg : Config} {k : EngineState 16 8} (h : UnpackerInv cfg k)
    (running : k.run = true) (hlt : k.pos < k.len) : ∃ u, fetchUnit k = some u := by
  obtain ⟨u, hu⟩ := (first_isSome_iff _ _).1 (h.input_written running) k.pos hlt
  exact ⟨u, fetchUnit_some_iff.2 ⟨hlt, hu⟩⟩

/-- At the end of a run the output is the unpacking of the whole input (R148). -/
theorem UnpackerInv.output_unpacks_all {cfg : Config} {k : EngineState 16 8} (h : UnpackerInv cfg k)
    (running : k.run = true) (atEnd : k.pos = k.len) :
    k.obuf.first k.olen = (k.ibuf.first k.len).map (unpack cfg.directOrder) := by
  obtain ⟨units, hunits⟩ := Option.isSome_iff_exists.1 (h.input_written running)
  have hlen : units.length = k.pos := (first_length hunits).trans atEnd.symm
  rw [h.output_unpacks running, hunits, Option.map_some, Option.map_some, ← hlen, List.take_length]

/-- `t` is the block after START of the Unpacker in `s`, where the Packer rests, and `n` data steps of the Unpacker. -/
structure UnpackerRunning (s : State) (n : Nat) (t : State) : Prop where
  inv : BlockInv t
  silent : t.agenda = []
  packerAtRest : t.pk.run = false
  running : t.up.run = true
  pos : t.up.pos = n
  len : t.up.len = s.up.len
  ibuf : t.up.ibuf = s.up.ibuf
  pk : t.pk = s.pk
  cfg : t.cfg = s.cfg

theorem UnpackerRunning.start {s : State} {v : Nat} (hinv : BlockInv s) (hpk : s.pk.run = false)
    (hrest : s.up.run = false) (hag : s.agenda = [.host (.wrReg .up .ctrl v)]) (hv : v % 2 = 1)
    (hwritten : (s.up.ibuf.first s.up.len).isSome = true) : ∃ t, step s = .next t ∧ UnpackerRunning s 0 t := by
  have hstep : step s = .next ((s.withAgenda []).withUp s.up.begin) :=
    (step_ctrl_eq_exec_upStart hag hv).trans
      (exec_upStart_next_iff.2 ⟨⟨hrest, hinv.up.len_legal, hwritten⟩, rfl⟩)
  exact ⟨_, hstep,
    { inv := stepKeepsInvariant _ _ hinv hstep
      silent := rfl
      packerAtRest := hpk
      running := rfl
      pos := rfl
      len := rfl
      ibuf := rfl
      pk := rfl
      cfg := rfl }⟩

/-- With the Packer at rest and the host silent, a step is the Unpacker's move. -/
theorem UnpackerRunning.step_eq {s t : State} {n : Nat} (h : UnpackerRunning s n t) : step t = engineStep .up t :=
  step_silent (e := .up) h.silent h.running (.inr h.packerAtRest)

theorem UnpackerRunning.data {s t : State} {n : Nat} (h : UnpackerRunning s n t) (hn : n < s.up.len) :
    ∃ t', step t = .next t' ∧ UnpackerRunning s (n + 1) t' := by
  have hlt : t.up.pos < t.up.len := by rw [h.pos, h.len]; exact hn
  obtain ⟨u, hf⟩ := h.inv.up.exists_fetchUnit h.running hlt
  have hstep := h.step_eq.trans (engineStep_up_unit h.running hf)
  exact ⟨_, hstep,
    { inv := stepKeepsInvariant _ _ h.inv hstep
      silent := h.silent
      packerAtRest := h.packerAtRest
      running := by simpa using h.running
      pos := by simpa using h.pos
      len := by simpa using h.len
      ibuf := by simpa using h.ibuf
      pk := h.pk
      cfg := h.cfg }⟩

/-- The Unpacker halts after the last data step, its output complete. -/
theorem UnpackerRunning.halt {s t : State} {units : List CodeUnit} (h : UnpackerRunning s s.up.len t)
    (hunits : s.up.ibuf.first s.up.len = some units) :
    step t = .next (t.withUp t.up.halt) ∧ t.up.obuf.first t.up.olen = some (unpack s.cfg.directOrder units) := by
  have hend : t.up.pos = t.up.len := h.pos.trans h.len.symm
  constructor
  · rw [h.step_eq, engineStep_up_atEnd h.running hend]
    exact exec_upHalt_next_iff.2 ⟨⟨h.running, hend⟩, rfl⟩
  · rw [h.inv.up.output_unpacks_all h.running hend, h.len, h.ibuf, h.cfg, hunits, Option.map_some]

theorem run_unpackerRunning {s : State} {v : Nat} (hinv : BlockInv s) (hpk : s.pk.run = false)
    (hrest : s.up.run = false) (hag : s.agenda = [.host (.wrReg .up .ctrl v)]) (hv : v % 2 = 1)
    (hwritten : (s.up.ibuf.first s.up.len).isSome = true) {n : Nat} (hn : n ≤ s.up.len) :
    ∃ t : State, core.run (n + 1) s = .next t ∧ UnpackerRunning s n t := by
  induction n with
  | zero =>
    obtain ⟨t, hstep, ht⟩ := UnpackerRunning.start hinv hpk hrest hag hv hwritten
    exact ⟨t, run_snoc (run_zero s) hstep, ht⟩
  | succ n ih =>
    obtain ⟨t, hrun, ht⟩ := ih (Nat.le_of_succ_le hn)
    obtain ⟨t', hstep, ht'⟩ := ht.data hn
    exact ⟨t', run_snoc hrun hstep, ht'⟩

/-- Settles O42, by induction on the data steps: each passes one unit, and the invariant gives the output. -/
theorem unpackRunComputesUnpack : Obligations.UnpackRunComputesUnpack := by
  intro s units v hinv hpk hrest hag hv hunits
  have hrun : ∀ n, n ≤ s.up.len → ∃ t : State, core.run (n + 1) s = .next t ∧ UnpackerRunning s n t :=
    fun n hn => run_unpackerRunning hinv hpk hrest hag hv (by simp [hunits]) hn
  constructor
  · obtain ⟨t, hreach, ht⟩ := hrun _ le_rfl
    obtain ⟨hstep, hout⟩ := ht.halt hunits
    exact ⟨_, run_snoc hreach hstep, rfl, ht.pos, ht.len, ht.ibuf, (first_length hout).symm, hout, ht.pk⟩
  · intro n hn
    obtain ⟨t, hreach, ht⟩ := hrun n hn
    exact ⟨t, hreach, ht.running⟩

/-! `unpack` unit by unit (41_unpacker.md R140). -/

theorem unpack_eq_flatMap (o : DirectOrder) (units : List CodeUnit) : unpack o units = units.flatMap (unpackUnit o) := by
  induction units with
  | nil => rfl
  | cons u rest ih => rw [unpack, ih, List.flatMap_cons]

theorem not_reserved_high_iff (u : CodeUnit) :
    reserved (high u) = false ↔ ¬ (0xD800 ≤ u.toNat ∧ u.toNat ≤ 0xDFFF) := by
  rw [← reserved_high_iff, Bool.not_eq_true]

/-- Settles O44: the bytes of a unit are its remainder and its quotient by 256. -/
theorem unpackIsUnitByUnit : Obligations.UnpackIsUnitByUnit := by
  refine ⟨unpack_eq_flatMap, fun u => ⟨fun hin o => ?_, fun hout => ?_⟩⟩
  · rw [unpackUnit_half ((reserved_high_iff u).2 hin), List.map_singleton, low_toNat]
  · have hres : reserved (high u) = false := (not_reserved_high_iff u).2 hout
    simp [unpackUnit_direct hres, low_toNat, high_toNat]

/-! The Unpacker's instructions one by one (41_unpacker.md R142 to R145). -/

theorem sameButUp_withUp (s : State) (k : EngineState 16 8) : SameButUp s (s.withUp k) := ⟨rfl, rfl, rfl, rfl⟩

theorem directBytes_lowFirst_toNat (u : CodeUnit) : (directBytes .lowFirst u).1.toNat = u.toNat % 256 ∧
    (directBytes .lowFirst u).2.toNat = u.toNat / 256 := ⟨low_toNat u, high_toNat u⟩

theorem directBytes_highFirst_toNat (u : CodeUnit) : (directBytes .highFirst u).1.toNat = u.toNat / 256 ∧
    (directBytes .highFirst u).2.toNat = u.toNat % 256 := ⟨high_toNat u, low_toNat u⟩

/-- Settles O13: the two bytes emitted are those of `directBytes`. -/
theorem upDirUnpacksUnitIntoTwoBytes : Obligations.UpDirUnpacksUnitIntoTwoBytes := by
  intro s u hrun hf hres
  refine ⟨_, _, _, exec_upDir_next_iff.2 ⟨⟨hrun, hf, hres⟩, rfl⟩, decode_unit_direct hres, fun ho => ?_, fun ho => ?_,
    emit_emit_jump_read_first _ _ _ _, emit_emit_jump_read_second _ _ _ _, emit_emit_jump_sameOutputBut _ _ _ _,
    rfl, rfl, hrun, emit_emit_jump_sameInput _ _ _ _, sameButUp_withUp _ _⟩
  · rw [ho]; exact directBytes_lowFirst_toNat u
  · rw [ho]; exact directBytes_highFirst_toNat u

/-- Settles O14: neither the neighbours nor `DIRECT_ORDER` stand in the step's condition or effect. -/
theorem upHalfUnpacksUnitIntoOneByte : Obligations.UpHalfUnpacksUnitIntoOneByte := by
  intro s u hrun hf hres
  exact ⟨_, low u, exec_upHalf_next_iff.2 ⟨⟨hrun, hf, hres⟩, rfl⟩, decode_unit_half hres, low_toNat u,
    read_write_same _ _ _, emit_jump_sameOutputBut _ _ _, rfl, rfl, hrun, emit_jump_sameInput _ _ _,
    sameButUp_withUp _ _⟩

/-- Settles O15: only `RUN` changes, and a resting Unpacker refuses all but START. -/
theorem upHaltEndsTheOperation : Obligations.UpHaltEndsTheOperation := by
  intro s hrun hend
  refine ⟨_, exec_upHalt_next_iff.2 ⟨⟨hrun, hend⟩, rfl⟩, rfl, rfl, rfl, ⟨rfl, fun _ => rfl⟩, fun _ _ => rfl,
    sameButUp_withUp _ _, fun hinv => hinv.up.output_unpacks_all hrun hend, fun i hi hstart => ?_⟩
  have hpk : i ≠ .pkStart := by rintro rfl; cases hi
  exact exec_refused_at_rest (by rw [hi]; rfl) hpk hstart

/-- Settles O21: a turn is the Unpacker's move, once the turn is taken off the agenda. -/
theorem unpackerDispatchesOnPosAndHighByte : Obligations.UnpackerDispatchesOnPosAndHighByte := by
  intro s rest hag
  rw [step_turn hag]
  exact ⟨fun hrest => engineStep_at_rest (e := .up) hrest,
    fun hrun hend => engineStep_up_atEnd (s := s.withAgenda rest) hrun hend,
    fun u hrun hf hlo hhi => engineStep_up_half (s := s.withAgenda rest) hrun hf ((reserved_high_iff u).2 ⟨hlo, hhi⟩),
    fun u hrun hf hout =>
      engineStep_up_direct (s := s.withAgenda rest) hrun hf ((not_reserved_high_iff u).2 (by omega))⟩

end Sys2Proof.Machine

namespace Sys2Proof.Machine

/-! START and its preconditions (42_control.md R171, R172, R177). -/

section Start

variable {wi wo : Nat} (k : EngineState wi wo)

/-- The preconditions of R177 are the tests the model makes. -/
theorem startLegal_iff (cap : Option Nat) : StartLegal cap k ↔
    k.run = false ∧ withinCap cap k.len = true ∧ (k.ibuf.first k.len).isSome = true := by
  rw [withinCap_iff, first_isSome_iff]; rfl

theorem begin_sameInput : SameInput k k.begin := ⟨rfl, fun _ => rfl⟩

theorem begin_sameOutput : SameOutputBut [] k k.begin := fun _ _ => rfl

end Start

theorem exec_pkStart_next_iff_legal {s t : State} :
    exec .pkStart s = .next t ↔ StartLegal s.cfg.pkCap s.pk ∧ t = s.withPk s.pk.begin := by
  rw [exec_pkStart_next_iff, startLegal_iff]

theorem exec_upStart_next_iff_legal {s t : State} :
    exec .upStart s = .next t ↔ StartLegal s.cfg.upCap s.up ∧ t = s.withUp s.up.begin := by
  rw [exec_upStart_next_iff, startLegal_iff]

theorem exec_pkStart_completes_iff (s : State) :
    (∃ t, exec .pkStart s = .next t) ↔ StartLegal s.cfg.pkCap s.pk := by
  simp [exec_pkStart_next_iff_legal]

theorem exec_upStart_completes_iff (s : State) :
    (∃ t, exec .upStart s = .next t) ↔ StartLegal s.cfg.upCap s.up := by
  simp [exec_upStart_next_iff_legal]

/-- The block has no faults (60_exceptions.md R220), so an outcome is a refusal exactly when it is no next state. -/
theorem refused_iff_not_next (o : Host.Outcome State Fault Refusal) :
    (∃ r, o = .refused r) ↔ ¬ ∃ t, o = .next t := by
  cases o with
  | next t => simp
  | fault r => cases r
  | refused r => simp

theorem exec_pkStart_refused_iff (s : State) :
    (∃ r, exec .pkStart s = .refused r) ↔ ¬ StartLegal s.cfg.pkCap s.pk :=
  (refused_iff_not_next _).trans (not_congr (exec_pkStart_completes_iff s))

theorem exec_upStart_refused_iff (s : State) :
    (∃ r, exec .upStart s = .refused r) ↔ ¬ StartLegal s.cfg.upCap s.up :=
  (refused_iff_not_next _).trans (not_congr (exec_upStart_completes_iff s))

/-- Settles O17: the tests START makes are R177's preconditions, and what does not complete is refused. -/
theorem startCompletesExactlyWhenLegal : Obligations.StartCompletesExactlyWhenLegal :=
  fun s => ⟨exec_pkStart_completes_iff s, exec_pkStart_refused_iff s,
    exec_upStart_completes_iff s, exec_upStart_refused_iff s⟩

/-! A value written to `CTRL`: bit 0 tells the command from what changes nothing (10_state.md R27, R32). -/

theorem decode_ctrl_pkStart {v : Nat} (hv : v % 2 = 1) : decode (.ctrl .pk v) = .ok .pkStart := if_pos hv

theorem decode_ctrl_upStart {v : Nat} (hv : v % 2 = 1) : decode (.ctrl .up v) = .ok .upStart := if_pos hv

theorem decode_ctrl_notACommand (e : Engine) {v : Nat} (hv : v % 2 = 0) :
    decode (.ctrl e v) = .error .notACommand :=
  if_neg (by omega)

theorem runWord_of_decode {s : State} {iw : InstrWord} {i : Instr} (hd : decode iw = .ok i) :
    runWord s iw = exec i s := by
  simp [runWord, hd]

theorem runWord_ctrl_notACommand (s : State) (e : Engine) {v : Nat} (hv : v % 2 = 0) :
    runWord s (.ctrl e v) = .next s := by
  simp [runWord, decode_ctrl_notACommand e hv]

/-- Settles O12: START begins the Packer's operation in the state it finds. -/
theorem pkStartBeginsAnOperation : Obligations.PkStartBeginsAnOperation :=
  fun s hlegal => ⟨_, exec_pkStart_next_iff_legal.2 ⟨hlegal, rfl⟩, rfl, rfl, rfl, begin_sameInput s.pk,
    begin_sameOutput s.pk, sameButPk_withPk s _, fun _ => ⟨decode_ctrl_pkStart, decode_ctrl_notACommand .pk⟩⟩

/-- Settles O16: START begins the Unpacker's operation in the state it finds. -/
theorem upStartBeginsAnOperation : Obligations.UpStartBeginsAnOperation :=
  fun s hlegal => ⟨_, exec_upStart_next_iff_legal.2 ⟨hlegal, rfl⟩, rfl, rfl, rfl, begin_sameInput s.up,
    begin_sameOutput s.up, sameButUp_withUp s _, fun _ => ⟨decode_ctrl_upStart, decode_ctrl_notACommand .up⟩⟩

/-! When an operation of the host on one engine is refused (42_control.md R174, R175, R178). -/

theorem withinCap_eq_false_iff (cap : Option Nat) (v : Nat) :
    withinCap cap v = false ↔ ∃ c, cap = some c ∧ c < v := by
  cases cap <;> simp [withinCap]

theorem belowCap_eq_false_iff (cap : Option Nat) (i : Nat) :
    belowCap cap i = false ↔ ∃ c, cap = some c ∧ c ≤ i := by
  cases cap <;> simp [belowCap]

theorem error_iff_not_ok {α : Type} (x : Except Refusal α) : (∃ r, x = .error r) ↔ ¬ ∃ a, x = .ok a := by
  cases x <;> simp

section Refusals

variable {wi wo : Nat} {k : EngineState wi wo} (e : Engine) (cap : Option Nat)

theorem writeLen_refused_iff (v : Nat) : (∃ r, k.writeLen e cap v = .error r) ↔ RegBreach cap k .len v := by
  simp only [error_iff_not_ok, writeLen_ok_iff, exists_and_left, exists_eq, and_true, not_and_or,
    Bool.not_eq_false, Bool.not_eq_true, withinCap_eq_false_iff, RegBreach]

theorem writeInput_refused_iff (i v : Nat) :
    (∃ r, k.writeInput e cap i v = .error r) ↔ WriteBreach cap k .ibuf i v := by
  simp only [error_iff_not_ok, writeInput_ok_iff, exists_and_left, exists_eq, and_true, not_and_or,
    Bool.not_eq_false, Bool.not_eq_true, belowCap_eq_false_iff, not_lt, WriteBreach]

theorem readInput_completes_iff (i : Nat) : (∃ n, k.readInput e cap i = .ok n) ↔
    k.run = false ∧ belowCap cap i = true ∧ ∃ v, k.ibuf.read i = some v := by
  simp only [readInput_ok_iff]
  constructor
  · rintro ⟨-, hrest, hin, v, hv, -⟩; exact ⟨hrest, hin, v, hv⟩
  · rintro ⟨hrest, hin, v, hv⟩; exact ⟨_, hrest, hin, v, hv, rfl⟩

/-- Where the first `OLEN` output elements hold values, a read below `OLEN` finds one. -/
theorem readOutput_completes_iff (hwritten : (k.obuf.first k.olen).isSome = true) (j : Nat) :
    (∃ n, k.readOutput e cap j = .ok n) ↔ k.run = false ∧ belowCap cap j = true ∧ j < k.olen := by
  simp only [readOutput_ok_iff]
  constructor
  · rintro ⟨-, hrest, hin, hlt, -⟩; exact ⟨hrest, hin, hlt⟩
  · rintro ⟨hrest, hin, hlt⟩
    obtain ⟨v, hv⟩ := (first_isSome_iff _ _).1 hwritten j hlt
    exact ⟨_, hrest, hin, hlt, v, hv, rfl⟩

/-- A read of an input element that holds no value is refused too (10_state.md R43, log 8). -/
theorem readInput_refused_iff (outCap : Option Nat) (i : Nat) :
    (∃ r, k.readInput e cap i = .error r) ↔ ReadBreach cap outCap k .ibuf i := by
  simp only [error_iff_not_ok, readInput_completes_iff, not_and_or, Bool.not_eq_false, Bool.not_eq_true,
    belowCap_eq_false_iff, ← Option.isSome_iff_exists, Option.isSome_eq_false_iff, Option.isNone_iff_eq_none,
    ReadBreach]

theorem readOutput_refused_iff (outCap : Option Nat) (hwritten : (k.obuf.first k.olen).isSome = true) (j : Nat) :
    (∃ r, k.readOutput e outCap j = .error r) ↔ ReadBreach cap outCap k .obuf j := by
  simp only [error_iff_not_ok, readOutput_completes_iff _ _ hwritten, not_and_or, Bool.not_eq_false,
    Bool.not_eq_true, belowCap_eq_false_iff, not_lt, ReadBreach]

end Refusals

/-! When an access of the host is refused: the operation it brings to the engine's state is (R178). -/

section Accesses

variable {s : State}

theorem putPk_refused_iff {x : Except Refusal (EngineState 8 16)} {r : Refusal} :
    s.putPk x = .refused r ↔ x = .error r := by
  cases x <;> simp [State.putPk]

theorem putUp_refused_iff {x : Except Refusal (EngineState 16 8)} {r : Refusal} :
    s.putUp x = .refused r ↔ x = .error r := by
  cases x <;> simp [State.putUp]

theorem putRead_refused_iff {x : Except Refusal Nat} {r : Refusal} : s.putRead x = .refused r ↔ x = .error r := by
  cases x <;> simp [State.putRead]

/-- A value written to `CTRL` is refused exactly when it is the command `i` and `i` is refused. -/
theorem hostWriteCtrl_refused_iff {e : Engine} {i : Instr} {v : Nat} {legal : Prop}
    (hd : v % 2 = 1 → decode (.ctrl e v) = .ok i) (hi : (∃ r, exec i s = .refused r) ↔ ¬ legal) :
    (∃ r, hostWriteReg e .ctrl v s = .refused r) ↔ v % 2 = 1 ∧ ¬ legal := by
  simp only [hostWriteReg]
  obtain hv | hv := Nat.mod_two_eq_zero_or_one v
  · simp [runWord_ctrl_notACommand s e hv, hv]
  · simp [runWord_of_decode (hd hv), hv, hi]

theorem hostWriteReg_pk_refused_iff (r : Reg) (v : Nat) :
    (∃ q, hostWriteReg .pk r v s = .refused q) ↔ RegBreach s.cfg.pkCap s.pk r v := by
  cases r with
  | ctrl => exact hostWriteCtrl_refused_iff decode_ctrl_pkStart (exec_pkStart_refused_iff s)
  | len => simpa only [hostWriteReg, putPk_refused_iff] using writeLen_refused_iff .pk s.cfg.pkCap v
  | status | pos | olen => simp [hostWriteReg, RegBreach]

theorem hostWriteReg_up_refused_iff (r : Reg) (v : Nat) :
    (∃ q, hostWriteReg .up r v s = .refused q) ↔ RegBreach s.cfg.upCap s.up r v := by
  cases r with
  | ctrl => exact hostWriteCtrl_refused_iff decode_ctrl_upStart (exec_upStart_refused_iff s)
  | len => simpa only [hostWriteReg, putUp_refused_iff] using writeLen_refused_iff .up s.cfg.upCap v
  | status | pos | olen => simp [hostWriteReg, RegBreach]

theorem hostReadBuf_pk_refused_iff (hwritten : (s.pk.obuf.first s.pk.olen).isSome = true) (b : BufId) (i : Nat) :
    (∃ r, hostReadBuf .pk b i s = .refused r) ↔ ReadBreach s.cfg.pkCap (pkOutCap s.cfg) s.pk b i := by
  cases b with
  | ibuf => simpa only [hostReadBuf, putRead_refused_iff] using readInput_refused_iff .pk _ _ i
  | obuf => simpa only [hostReadBuf, putRead_refused_iff] using readOutput_refused_iff .pk _ _ hwritten i

theorem hostReadBuf_up_refused_iff (hwritten : (s.up.obuf.first s.up.olen).isSome = true) (b : BufId) (i : Nat) :
    (∃ r, hostReadBuf .up b i s = .refused r) ↔ ReadBreach s.cfg.upCap (upOutCap s.cfg) s.up b i := by
  cases b with
  | ibuf => simpa only [hostReadBuf, putRead_refused_iff] using readInput_refused_iff .up _ _ i
  | obuf => simpa only [hostReadBuf, putRead_refused_iff] using readOutput_refused_iff .up _ _ hwritten i

theorem hostWriteBuf_pk_refused_iff (b : BufId) (i v : Nat) :
    (∃ r, hostWriteBuf .pk b i v s = .refused r) ↔ WriteBreach s.cfg.pkCap s.pk b i v := by
  cases b with
  | ibuf => simpa only [hostWriteBuf, putPk_refused_iff] using writeInput_refused_iff .pk s.cfg.pkCap i v
  | obuf => simp [hostWriteBuf, WriteBreach]

theorem hostWriteBuf_up_refused_iff (b : BufId) (i v : Nat) :
    (∃ r, hostWriteBuf .up b i v s = .refused r) ↔ WriteBreach s.cfg.upCap s.up b i v := by
  cases b with
  | ibuf => simpa only [hostWriteBuf, putUp_refused_iff] using writeInput_refused_iff .up s.cfg.upCap i v
  | obuf => simp [hostWriteBuf, WriteBreach]

end Accesses

/-- An action of the host is refused exactly on a breach, where every output element below `OLEN` holds a value. -/
theorem hostAct_refused_iff {s : State} (hpk : (s.pk.obuf.first s.pk.olen).isSome = true)
    (hup : (s.up.obuf.first s.up.olen).isSome = true) (a : HostAction) :
    (∃ r, hostAct a s = .refused r) ↔ Breach s a := by
  cases a with
  | rdReg e r => simp [hostAct, Breach]
  | wrReg e r v =>
    cases e with
    | pk => exact hostWriteReg_pk_refused_iff r v
    | up => exact hostWriteReg_up_refused_iff r v
  | rdBuf e b i =>
    cases e with
    | pk => exact hostReadBuf_pk_refused_iff hpk b i
    | up => exact hostReadBuf_up_refused_iff hup b i
  | wrBuf e b i v =>
    cases e with
    | pk => exact hostWriteBuf_pk_refused_iff b i v
    | up => exact hostWriteBuf_up_refused_iff b i v

/-- The events to come play no part in what a breach is. -/
theorem breach_withAgenda (s : State) (l : List Event) (a : HostAction) : Breach (s.withAgenda l) a ↔ Breach s a := by
  cases a with
  | rdReg => rfl
  | wrReg e | rdBuf e | wrBuf e => cases e <;> rfl

theorem step_host {s : State} {a : HostAction} {rest : List Event} (hag : s.agenda = .host a :: rest) :
    step s = hostAct a (s.withAgenda rest) :=
  step_cons hag

/-- Settles O28: each access is refused exactly outside its conditions, and the invariant gives every output element
below `OLEN` a value. -/
theorem hostActionRefusedExactlyOnBreach : Obligations.HostActionRefusedExactlyOnBreach := by
  intro s a rest hinv hag
  rw [step_host hag, ← breach_withAgenda s rest]
  exact hostAct_refused_iff (s := s.withAgenda rest) hinv.pk.output_written hinv.up.output_written a

/-! The output of a resting engine (42_control.md R180). -/

/-- Of the changes of a resting engine only START and reset touch `RUN`, `POS` and the output. -/
theorem EngineChange.output_kept_at_rest {wi wo : Nat} {e : Engine} {cap : Option Nat} {agenda : List Event}
    {k k' : EngineState wi wo} {consumes : EngineState wi wo → List (BitVec wo) → Nat → Prop}
    (h : EngineChange e cap consumes agenda k k') (atRest : k.run = false)
    (noReset : ∀ rest, agenda ≠ .reset :: rest) (noStart : ∀ ev rest, agenda = ev :: rest → ev.isStart e = false) :
    k'.run = false ∧ k'.obuf = k.obuf ∧ k'.olen = k.olen ∧ k'.pos = k.pos := by
  cases h with
  | kept same => subst same; exact ⟨atRest, rfl, rfl, rfl⟩
  | data _ _ running => exact vacuous_at_rest atRest running
  | halt running => exact vacuous_at_rest atRest running
  | start _ _ ev =>
    obtain ⟨ev, rest, hag, hstart⟩ := ev
    simp [noStart ev rest hag] at hstart
  | reset ev => exact absurd ev.choose_spec (noReset _)
  | setLen _ _ _ _ same => exact same ▸ ⟨atRest, rfl, rfl, rfl⟩
  | setInput _ _ _ _ same => exact same ▸ ⟨atRest, rfl, rfl, rfl⟩

/-- Settles O29: what is left to a resting engine without START and reset are the host's writes to its input. -/
theorem outputStaysUntilNextStart : Obligations.OutputStaysUntilNextStart := by
  intro s t hstep hother
  have noReset : ∀ rest, s.agenda ≠ .reset :: rest := fun rest hag => (hother _ rest hag).1 rfl
  exact ⟨fun hrest => (step_packerChange hstep).output_kept_at_rest hrest noReset
      fun ev rest hag => (hother ev rest hag).2.1,
    fun hrest => (step_unpackerChange hstep).output_kept_at_rest hrest noReset
      fun ev rest hag => (hother ev rest hag).2.2⟩

/-! The accesses of the host that complete (42_control.md R173 to R175). -/

theorem readReg_status (s : State) (e : Engine) : s.readReg e .status = if s.running e then 1 else 0 := by
  cases e <;> exact Bool.cond_eq_ite _ _ _

/-- Settles O24: the value returned is the register's, which is put in the host's record. -/
theorem registerReadReturnsItsValue : Obligations.RegisterReadReturnsItsValue := by
  intro s e r rest hag
  refine ⟨s.readReg e r, ?_, ?_, ?_, ?_, ?_, ?_⟩
  · rw [step_host hag]; cases e <;> rfl
  · rintro rfl; cases e <;> rfl
  · rintro rfl; exact readReg_status s e
  · rintro rfl; cases e <;> rfl
  · rintro rfl; cases e <;> rfl
  · rintro rfl; cases e <;> rfl

section Completions

variable {wi wo : Nat} {k : EngineState wi wo} (e : Engine) {cap : Option Nat}

theorem writeLen_at_rest {v : Nat} (hrest : k.run = false) (hv : ∀ c, cap = some c → v ≤ c) :
    k.writeLen e cap v = .ok { k with len := v } :=
  writeLen_ok_iff.2 ⟨⟨hrest, (withinCap_iff _ _).2 hv⟩, rfl⟩

theorem writeInput_at_rest {i v : Nat} (hrest : k.run = false) (hi : ∀ c, cap = some c → i < c) (hv : v < 2 ^ wi) :
    k.writeInput e cap i v = .ok { k with ibuf := k.ibuf.write i (BitVec.ofNat wi v) } :=
  writeInput_ok_iff.2 ⟨⟨hrest, (belowCap_iff _ _).2 hi, hv⟩, rfl⟩

theorem readInput_at_rest {i : Nat} {v : BitVec wi} (hrest : k.run = false) (hi : ∀ c, cap = some c → i < c)
    (hv : k.ibuf.read i = some v) : k.readInput e cap i = .ok v.toNat :=
  readInput_ok_iff.2 ⟨hrest, (belowCap_iff _ _).2 hi, v, hv, rfl⟩

theorem readOutput_at_rest {j : Nat} {v : BitVec wo} (hrest : k.run = false) (hj : ∀ c, cap = some c → j < c)
    (holen : j < k.olen) (hv : k.obuf.read j = some v) : k.readOutput e cap j = .ok v.toNat :=
  readOutput_ok_iff.2 ⟨hrest, (belowCap_iff _ _).2 hj, holen, v, hv, rfl⟩

end Completions

/-- Settles O25: `CTRL` is the command port, `LEN` takes a legal value at rest, the other registers ignore a write. -/
theorem registerWriteFollowsItsAccess : Obligations.RegisterWriteFollowsItsAccess := by
  intro s e r v rest hag
  rw [step_host hag]
  refine ⟨?_, ?_, ?_, ?_, ?_, ?_, ?_, ?_⟩
  · rintro (rfl | rfl | rfl)
    · rfl
    · rfl
    · rfl
  · rintro rfl hv
    exact runWord_ctrl_notACommand _ e hv
  · rintro rfl hv rfl
    exact runWord_of_decode (decode_ctrl_pkStart hv)
  · rintro rfl hv rfl
    exact runWord_of_decode (decode_ctrl_upStart hv)
  · rintro rfl rfl hrest hv
    exact putPk_next_iff.2 ⟨_, writeLen_at_rest .pk hrest hv, rfl⟩
  · rintro rfl rfl hrest hv
    exact putUp_next_iff.2 ⟨_, writeLen_at_rest .up hrest hv, rfl⟩
  · rintro rfl hrun
    cases e with
    | pk => exact (hostWriteReg_pk_refused_iff .len v).2 (.inl hrun)
    | up => exact (hostWriteReg_up_refused_iff .len v).2 (.inl hrun)
  · rintro rfl (⟨rfl, habove⟩ | ⟨rfl, habove⟩)
    · exact (hostWriteReg_pk_refused_iff .len v).2 (.inr habove)
    · exact (hostWriteReg_up_refused_iff .len v).2 (.inr habove)

/-- Settles O26: the write completes, and a memory write changes one element. -/
theorem inputWriteStoresOneElement : Obligations.InputWriteStoresOneElement := by
  refine ⟨fun s i v rest hag hrest hi hv => ?_, fun s i v rest hag hrest hi hv => ?_⟩
  · have hstep := (step_host hag).trans (putPk_next_iff.2 ⟨_, writeInput_at_rest .pk hrest hi hv, rfl⟩)
    exact ⟨_, BitVec.ofNat 8 v, hstep, Nat.mod_eq_of_lt hv, read_write_same _ _ _,
      fun _ hj => read_write_other _ _ hj, rfl⟩
  · have hstep := (step_host hag).trans (putUp_next_iff.2 ⟨_, writeInput_at_rest .up hrest hi hv, rfl⟩)
    exact ⟨_, BitVec.ofNat 16 v, hstep, Nat.mod_eq_of_lt hv, read_write_same _ _ _,
      fun _ hj => read_write_other _ _ hj, rfl⟩

/-- An index of `UP.OBUF` is below twice the Unpacker's capacity (20_memory.md R50). -/
theorem lt_upOutCap {cfg : Config} {j : Nat} (hj : ∀ c, cfg.upCap = some c → j < 2 * c) :
    ∀ c, upOutCap cfg = some c → j < c := by
  intro c hc
  obtain ⟨n, hn, rfl⟩ := Option.map_eq_some_iff.1 hc
  exact hj n hn

/-- Settles O27: each of the four reads completes and puts the element's value in the host's record. -/
theorem bufferReadReturnsTheElement : Obligations.BufferReadReturnsTheElement := by
  refine ⟨fun s i b rest hag hrest hi hb => ?_, fun s j u rest hag hrest hj holen hu => ?_,
    fun s i u rest hag hrest hi hu => ?_, fun s j b rest hag hrest hj holen hb => ?_⟩
  · exact (step_host hag).trans (putRead_next_iff.2 ⟨_, readInput_at_rest .pk hrest hi hb, rfl⟩)
  · exact (step_host hag).trans (putRead_next_iff.2 ⟨_, readOutput_at_rest .pk hrest hj holen hu, rfl⟩)
  · exact (step_host hag).trans (putRead_next_iff.2 ⟨_, readInput_at_rest .up hrest hi hu, rfl⟩)
  · exact (step_host hag).trans
      (putRead_next_iff.2 ⟨_, readOutput_at_rest .up hrest (lt_upOutCap hj) holen hb, rfl⟩)

end Sys2Proof.Machine

namespace Sys2Proof.Machine

/-! `pack`, `unpack` and `pad` pair by pair (43_codec_laws.md, notation and R202). -/

/-- Each unit is decoded on its own. -/
theorem unpack_append (o : DirectOrder) (s t : List CodeUnit) : unpack o (s ++ t) = unpack o s ++ unpack o t := by
  rw [unpack_eq_flatMap, unpack_eq_flatMap, unpack_eq_flatMap, List.flatMap_append]

/-- After an even number of bytes `pack` pairs the rest as if it stood alone. -/
theorem pack_append {a : List Byte} (heven : a.length % 2 = 0) (b : List Byte) : pack (a ++ b) = pack a ++ pack b := by
  induction a using pack.induct with
  | case1 => rfl
  | case2 b0 => simp at heven
  | case3 b0 b1 rest ih =>
    have hrest : rest.length % 2 = 0 := by simp only [List.length_cons] at heven; omega
    rw [List.cons_append, List.cons_append, pack, pack, ih hrest, List.append_assoc]

/-- Settles O52: the two laws and the counterexample for an odd first part. -/
theorem concatenationLaws : Obligations.ConcatenationLaws :=
  ⟨unpack_append, fun _ b heven => pack_append heven b, by decide, by decide⟩

theorem pad_of_even {buf : List Byte} (heven : buf.length % 2 = 0) : pad buf = buf := if_neg (by omega)

theorem pad_of_odd {buf : List Byte} (hodd : buf.length % 2 = 1) : pad buf = buf ++ [padByte] := if_pos hodd

/-- A pair in front leaves the padding to the rest of the buffer. -/
theorem pad_cons_cons (b0 b1 : Byte) (rest : List Byte) : pad (b0 :: b1 :: rest) = b0 :: b1 :: pad rest := by
  rcases Nat.mod_two_eq_zero_or_one rest.length with h | h
  · rw [pad_of_even h, pad_of_even (by simp only [List.length_cons]; omega)]
  · rw [pad_of_odd h, pad_of_odd (by simp only [List.length_cons]; omega)]; rfl

theorem pad_length (buf : List Byte) : (pad buf).length = 2 * ((buf.length + 1) / 2) := by
  rcases Nat.mod_two_eq_zero_or_one buf.length with h | h
  · rw [pad_of_even h]; omega
  · rw [pad_of_odd h, List.length_append, List.length_singleton]; omega

theorem pack_eq_flatMap_pairs (buf : List Byte) : pack buf = (pairs buf).flatMap (fun p => packPair p.1 p.2) := by
  induction buf using pack.induct with
  | case1 => rfl
  | case2 b0 => exact (List.append_nil _).symm
  | case3 b0 b1 rest ih => rw [pack, pairs, List.flatMap_cons, ih]

theorem pad_eq_flatMap_pairs (buf : List Byte) : pad buf = (pairs buf).flatMap (fun p => [p.1, p.2]) := by
  induction buf using pairs.induct with
  | case1 => rfl
  | case2 b0 => rfl
  | case3 b0 b1 rest ih => rw [pad_cons_cons, pairs, List.flatMap_cons, ih]; rfl

/-! The round trip (43_codec_laws.md R194, R196). -/

/-- A packed buffer comes back pair by pair. -/
theorem unpack_pack_eq_flatMap_pairs (o : DirectOrder) (buf : List Byte) :
    unpack o (pack buf) = (pairs buf).flatMap (fun p => unpack o (packPair p.1 p.2)) := by
  simp only [pack_eq_flatMap_pairs, unpack_eq_flatMap, List.flatMap_assoc]

/-- The halves of an escape give the bytes in their order, whatever `DIRECT_ORDER` is. -/
theorem unpack_packPair_escape (o : DirectOrder) (b0 : Byte) {b1 : Byte} (h : reserved b1 = true) :
    unpack o (packPair b0 b1) = [b0, b1] := by
  simp [packPair_escape h, unpack, unpackUnit_half]

theorem unpack_packPair_direct (o : DirectOrder) (b0 : Byte) {b1 : Byte} (h : reserved b1 = false) :
    unpack o (packPair b0 b1) = unpackUnit o (pairWord b0 b1) := by
  rw [packPair_direct h]; exact List.append_nil _

theorem unpack_lowFirst_packPair (b0 b1 : Byte) : unpack .lowFirst (packPair b0 b1) = [b0, b1] := by
  cases h : reserved b1 with
  | false => simp [unpack_packPair_direct _ b0 h, unpackUnit_direct, h]
  | true => exact unpack_packPair_escape .lowFirst b0 h

theorem unpack_highFirst_packPair (b0 b1 : Byte) :
    unpack .highFirst (packPair b0 b1) = if reserved b1 then [b0, b1] else [b1, b0] := by
  cases h : reserved b1 with
  | false => simp [unpack_packPair_direct _ b0 h, unpackUnit_direct, h]
  | true => exact unpack_packPair_escape .highFirst b0 h

/-- R194 in one equation for both parities. -/
theorem unpack_lowFirst_pack (buf : List Byte) : unpack .lowFirst (pack buf) = pad buf := by
  simp only [unpack_pack_eq_flatMap_pairs, unpack_lowFirst_packPair, pad_eq_flatMap_pairs]

/-- Settles O45: the round trip is `pad`, which appends a byte exactly to the odd buffers. -/
theorem roundTripGivesThePaddedBuffer : Obligations.RoundTripGivesThePaddedBuffer :=
  fun buf => ⟨fun heven => (unpack_lowFirst_pack buf).trans (pad_of_even heven),
    fun hodd => (unpack_lowFirst_pack buf).trans (pad_of_odd hodd)⟩

/-- Two concatenations whose parts have the same lengths agree exactly when the parts do. -/
theorem flatMap_eq_flatMap_iff_of_length_eq {α β : Type} {f g : α → List β}
    (hlen : ∀ a, (f a).length = (g a).length) (l : List α) : l.flatMap f = l.flatMap g ↔ ∀ a ∈ l, f a = g a := by
  induction l with
  | nil => simp
  | cons a rest ih =>
    rw [List.flatMap_cons, List.flatMap_cons, List.forall_mem_cons, ← ih]
    exact ⟨fun h => List.append_inj h (hlen a), fun ⟨h, hrest⟩ => by rw [h, hrest]⟩

/-- With `HIGH_FIRST` a pair comes back in its order if it is escaped or its two bytes are equal. -/
theorem unpack_highFirst_packPair_eq_iff (b0 b1 : Byte) :
    unpack .highFirst (packPair b0 b1) = [b0, b1] ↔ (reserved b1 = false → b0 = b1) := by
  rw [unpack_highFirst_packPair]
  cases reserved b1 with
  | false => simpa using Eq.symm
  | true => simp

/-- Settles O46: the round trip and `pad` are compared pair by pair. -/
theorem highFirstSwapsEveryDirectPair : Obligations.HighFirstSwapsEveryDirectPair := by
  intro buf
  have hlen (p : Byte × Byte) : (unpack .highFirst (packPair p.1 p.2)).length = [p.1, p.2].length := by
    rw [unpack_highFirst_packPair]; split <;> rfl
  refine ⟨?_, ?_, by decide, by decide⟩
  · simp only [unpack_pack_eq_flatMap_pairs, unpack_highFirst_packPair]
  · rw [unpack_pack_eq_flatMap_pairs, pad_eq_flatMap_pairs, flatMap_eq_flatMap_iff_of_length_eq hlen]
    simp only [unpack_highFirst_packPair_eq_iff]

/-! Padding and injectivity (43_codec_laws.md R201). -/

theorem pack_pad (buf : List Byte) : pack (pad buf) = pack buf := by
  rcases Nat.mod_two_eq_zero_or_one buf.length with h | h
  · rw [pad_of_even h]
  · rw [pad_of_odd h, ← pack_append_pad buf h]

/-- `pad` is the round trip of `pack`, and `pack` does not see it. -/
theorem pack_eq_pack_iff (a b : List Byte) : pack a = pack b ↔ pad a = pad b := by
  constructor
  · intro h; rw [← unpack_lowFirst_pack, h, unpack_lowFirst_pack]
  · intro h; rw [← pack_pad, h, pack_pad]

/-- Settles O51: on buffers of even length `pad` is the identity. -/
theorem packForgetsOnlyThePadding : Obligations.PackForgetsOnlyThePadding := by
  refine ⟨fun buf => (pack_pad buf).symm, pack_eq_pack_iff, fun a b ha hb h => ?_, by decide, by decide⟩
  simpa only [pad_of_even ha, pad_of_even hb] using (pack_eq_pack_iff a b).1 h

/-! Lengths (43_codec_laws.md R192, R193). -/

/-- One unit for a pair and one more for an escape. -/
theorem packPair_length (b0 b1 : Byte) : (packPair b0 b1).length = 1 + if reserved b1 then 1 else 0 := by
  cases h : reserved b1 with
  | false => rw [packPair_direct h]; rfl
  | true => rw [packPair_escape h]; rfl

theorem pack_length (buf : List Byte) : (pack buf).length = (buf.length + 1) / 2 + escapes buf := by
  induction buf using pack.induct with
  | case1 => rfl
  | case2 b0 => simp [pack, packPair_length, escapes]
  | case3 b0 b1 rest ih =>
    rw [pack, List.length_append, packPair_length, ih, escapes, List.length_cons, List.length_cons]
    omega

/-- Only a pair with a real second byte can be escaped. -/
theorem escapes_le (buf : List Byte) : escapes buf ≤ buf.length / 2 := by
  induction buf using escapes.induct with
  | case1 => exact le_rfl
  | case2 b0 => exact Nat.zero_le _
  | case3 b0 b1 rest ih =>
    rw [escapes, List.length_cons, List.length_cons]
    split <;> omega

/-- The bytes at odd offsets are the second byte of the first pair and those of the rest. -/
theorem forall_oddOffset_cons_cons {P : Byte → Prop} (b0 b1 : Byte) (rest : List Byte) :
    (∀ k b, (b0 :: b1 :: rest)[2 * k + 1]? = some b → P b) ↔ P b1 ∧ ∀ k b, rest[2 * k + 1]? = some b → P b := by
  refine ⟨fun h => ⟨h 0 b1 rfl, fun k => h (k + 1)⟩, fun ⟨hfirst, hrest⟩ k b hb => ?_⟩
  cases k with
  | zero => cases hb; exact hfirst
  | succ k => exact hrest k b hb

/-- Every pair that can be escaped is, exactly when every byte at an odd offset is reserved. -/
theorem escapes_eq_half_iff (buf : List Byte) :
    escapes buf = buf.length / 2 ↔ ∀ k b, buf[2 * k + 1]? = some b → reserved b = true := by
  induction buf using escapes.induct with
  | case1 => simp [escapes]
  | case2 b0 => simp [escapes]
  | case3 b0 b1 rest ih =>
    have hle := escapes_le rest
    rw [forall_oddOffset_cons_cons, ← ih, escapes, List.length_cons, List.length_cons]
    cases reserved b1 with
    | false => simp only [Bool.false_eq_true, if_false, false_and, iff_false]; omega
    | true => simp only [if_true, true_and]; omega

/-- Settles O47: the bounds follow from the exact length, since the halves of `N` add up to `N`. -/
theorem packLengthCountsEscapes : Obligations.PackLengthCountsEscapes := by
  intro buf
  have hlen := pack_length buf
  have hle := escapes_le buf
  refine ⟨hlen, hle, by omega, by omega, ?_⟩
  rw [← escapes_eq_half_iff]
  omega

@[simp] theorem halves_append (s t : List CodeUnit) : halves (s ++ t) = halves s + halves t := List.countP_append

theorem halves_cons (u : CodeUnit) (s : List CodeUnit) :
    halves (u :: s) = halves s + if reserved (high u) then 1 else 0 := List.countP_cons

/-- A reserved unit gives one byte of the two a direct unit gives. -/
theorem unpackUnit_length (o : DirectOrder) (u : CodeUnit) :
    (unpackUnit o u).length + (if reserved (high u) then 1 else 0) = 2 := by
  cases h : reserved (high u) with
  | false => rw [unpackUnit_eq_directBytes h]; rfl
  | true => rw [unpackUnit_half h]; rfl

theorem unpack_length (o : DirectOrder) (s : List CodeUnit) : (unpack o s).length + halves s = 2 * s.length := by
  induction s with
  | nil => rfl
  | cons u rest ih =>
    have hunit := unpackUnit_length o u
    rw [unpack, List.length_append, halves_cons, List.length_cons]
    omega

theorem halves_le (s : List CodeUnit) : halves s ≤ s.length := List.countP_le_length

theorem halves_packPair (b0 b1 : Byte) : halves (packPair b0 b1) = 2 * if reserved b1 then 1 else 0 := by
  cases h : reserved b1 with
  | false => simp [packPair_direct h, halves, h]
  | true => simp [packPair_escape h, halves]

/-- Each escape gives two reserved units, and a direct pair none. -/
theorem halves_pack (buf : List Byte) : halves (pack buf) = 2 * escapes buf := by
  induction buf using pack.induct with
  | case1 => rfl
  | case2 b0 => simp [pack, halves_packPair, escapes]
  | case3 b0 b1 rest ih => rw [pack, halves_append, halves_packPair, ih, escapes, Nat.mul_add]

/-- The round trip has the padded length in both orders: the two halves of an escape make up for its second unit. -/
theorem unpack_pack_length (o : DirectOrder) (buf : List Byte) :
    (unpack o (pack buf)).length = 2 * ((buf.length + 1) / 2) := by
  have hunpack := unpack_length o (pack buf)
  rw [halves_pack, pack_length] at hunpack
  omega

/-- Settles O48: the bounds follow from the exact length, since `H(s)` is at most `M`. -/
theorem unpackLengthCountsHalves : Obligations.UnpackLengthCountsHalves := by
  refine ⟨fun o s => ?_, halves_pack, fun o buf => ?_⟩
  · have hlen := unpack_length o s
    have hle := halves_le s
    exact ⟨hlen, by omega, by omega⟩
  · exact ⟨unpack_pack_length o buf, (unpack_pack_length o buf).trans (pad_length buf).symm⟩

/-! Canonical sequences (43_codec_laws.md R198, R199). -/

/-- A legal block is the packing of one pair. -/
theorem Block.exists_units_eq_packPair {b : Block} (h : b.legal = true) : ∃ b0 b1, b.units = packPair b0 b1 := by
  cases b with
  | direct u =>
    have hdirect : reserved (high u) = false := by simpa [Block.legal] using h
    exact ⟨low u, high u, by rw [packPair_direct hdirect, pairWord_low_high]; rfl⟩
  | escape x y => exact ⟨x, y, (packPair_escape h).symm⟩

/-- The packing of one pair is a legal block. -/
theorem exists_block_of_packPair (b0 b1 : Byte) : ∃ b : Block, b.legal = true ∧ b.units = packPair b0 b1 := by
  cases h : reserved b1 with
  | false => exact ⟨.direct (pairWord b0 b1), by simp [Block.legal, h], (packPair_direct h).symm⟩
  | true => exact ⟨.escape b0 b1, h, (packPair_escape h).symm⟩

theorem canonical_nil : Canonical [] := ⟨[], by simp, rfl⟩

/-- One packed pair more in front keeps a sequence canonical. -/
theorem Canonical.packPair_append {s : List CodeUnit} (hs : Canonical s) (b0 b1 : Byte) :
    Canonical (packPair b0 b1 ++ s) := by
  obtain ⟨blocks, hlegal, rfl⟩ := hs
  obtain ⟨b, hb, hunits⟩ := exists_block_of_packPair b0 b1
  exact ⟨b :: blocks, List.forall_mem_cons.2 ⟨hb, hlegal⟩, by rw [List.flatMap_cons, hunits]⟩

theorem canonical_pack (buf : List Byte) : Canonical (pack buf) := by
  induction buf using pack.induct with
  | case1 => exact canonical_nil
  | case2 b0 => simpa [pack] using canonical_nil.packPair_append b0 padByte
  | case3 b0 b1 rest ih => exact ih.packPair_append b0 b1

/-- The buffer behind a concatenation of blocks lists the pairs behind the blocks. -/
theorem Canonical.exists_pack_eq {s : List CodeUnit} (hs : Canonical s) : ∃ buf, pack buf = s := by
  obtain ⟨blocks, hlegal, rfl⟩ := hs
  induction blocks with
  | nil => exact ⟨[], rfl⟩
  | cons b rest ih =>
    obtain ⟨hb, hrest⟩ := List.forall_mem_cons.1 hlegal
    obtain ⟨b0, b1, hunits⟩ := Block.exists_units_eq_packPair hb
    obtain ⟨buf, hbuf⟩ := ih hrest
    exact ⟨b0 :: b1 :: buf, by rw [pack, hbuf, List.flatMap_cons, hunits]⟩

theorem canonical_iff_exists_pack_eq (s : List CodeUnit) : Canonical s ↔ ∃ buf, pack buf = s :=
  ⟨Canonical.exists_pack_eq, fun ⟨buf, hbuf⟩ => hbuf ▸ canonical_pack buf⟩

/-- Packing an unpacked sequence gives it back when some buffer packs to it, and gives a packed one in any case. -/
theorem pack_unpack_lowFirst_eq_iff (s : List CodeUnit) : pack (unpack .lowFirst s) = s ↔ Canonical s := by
  rw [canonical_iff_exists_pack_eq]
  refine ⟨fun h => ⟨_, h⟩, ?_⟩
  rintro ⟨buf, rfl⟩
  rw [unpack_lowFirst_pack, pack_pad]

/-- Settles O49: the unpacking of a packed buffer is the buffer padded to an even length. -/
theorem canonicalSequencesAreThePackedOnes : Obligations.CanonicalSequencesAreThePackedOnes := by
  refine fun s => ⟨canonical_iff_exists_pack_eq s, fun hs => ⟨?_, (pack_unpack_lowFirst_eq_iff s).2 hs⟩⟩
  obtain ⟨buf, rfl⟩ := hs.exists_pack_eq
  rw [unpack_pack_length, Nat.mul_mod_right]

/-- Settles O50: the equivalence, the rule's tests, and a packed sequence that `HIGH_FIRST` does not give back. -/
theorem repackIsIdentityExactlyOnCanonical : Obligations.RepackIsIdentityExactlyOnCanonical :=
  ⟨pack_unpack_lowFirst_eq_iff, by decide, by decide, by decide, by decide, canonical_pack [0x41#8], by decide,
    by decide⟩

/-! Surrogates of a packed sequence (43_codec_laws.md R197, R203). -/

/-- The two units of the escape of `(x, y)` stand at `j` and `j + 1`. -/
structure EscapeAt (s : List CodeUnit) (j : Nat) (x y : Byte) : Prop where
  reserved_second : reserved y = true
  first_unit : s[j]? = some (escHi x)
  second_unit : s[j + 1]? = some (escLo y)

theorem EscapeAt.cons {s : List CodeUnit} {j : Nat} {x y : Byte} (h : EscapeAt s j x y) (u : CodeUnit) :
    EscapeAt (u :: s) (j + 1) x y :=
  ⟨h.reserved_second, h.first_unit, h.second_unit⟩

/-- A reserved unit of a canonical sequence is one of the two units of an escape. -/
theorem Canonical.exists_escapeAt {s : List CodeUnit} (hs : Canonical s) {i : Nat} {u : CodeUnit}
    (hu : s[i]? = some u) (hres : reserved (high u) = true) : ∃ j x y, EscapeAt s j x y ∧ (i = j ∨ i = j + 1) := by
  obtain ⟨blocks, hlegal, rfl⟩ := hs
  induction blocks generalizing i with
  | nil => simp at hu
  | cons b rest ih =>
    obtain ⟨hb, hrest⟩ := List.forall_mem_cons.1 hlegal
    cases b with
    | direct d =>
      match i with
      | 0 =>
        obtain rfl : d = u := by simpa [Block.units] using hu
        simp [Block.legal, hres] at hb
      | i + 1 =>
        obtain ⟨j, x, y, hesc, hi⟩ := ih hrest hu
        exact ⟨j + 1, x, y, hesc.cons d, by omega⟩
    | escape x y =>
      match i with
      | 0 => exact ⟨0, x, y, ⟨hb, rfl, rfl⟩, .inl rfl⟩
      | 1 => exact ⟨0, x, y, ⟨hb, rfl, rfl⟩, .inr rfl⟩
      | i + 2 =>
        obtain ⟨j, x', y', hesc, hi⟩ := ih hrest hu
        exact ⟨j + 2, x', y', (hesc.cons _).cons _, by omega⟩

theorem escHi_range (b0 : Byte) : 0xD800 ≤ (escHi b0).toNat ∧ (escHi b0).toNat ≤ 0xD8FF := by
  have := b0.isLt
  rw [escHi_toNat]; omega

theorem escLo_range {b1 : Byte} (h : reserved b1 = true) :
    0xDCD8 ≤ (escLo b1).toNat ∧ (escLo b1).toNat ≤ 0xDCDF := by
  have := (reserved_iff b1).1 h
  rw [escLo_toNat]; omega

/-- Settles O53: the range of a reserved unit says which unit of its escape it is, and the other one is its
neighbour. -/
theorem packedSurrogatesComeInPairs : Obligations.PackedSurrogatesComeInPairs := by
  refine fun buf => ⟨fun i h hh hlo hhi => ?_, fun i l hl hlo hhi => ?_, halves_pack buf⟩
  · have hres : reserved (high h) = true := (reserved_high_iff h).2 ⟨hlo, by omega⟩
    obtain ⟨j, x, y, hesc, hi⟩ := (canonical_pack buf).exists_escapeAt hh hres
    have hy := escLo_range hesc.reserved_second
    obtain rfl | rfl := hi
    · obtain rfl : escHi x = h := Option.some.inj (hesc.first_unit.symm.trans hh)
      exact ⟨(escHi_range x).2, escLo y, hesc.second_unit, hy⟩
    · obtain rfl : escLo y = h := Option.some.inj (hesc.second_unit.symm.trans hh)
      omega
  · have hres : reserved (high l) = true := (reserved_high_iff l).2 ⟨by omega, hhi⟩
    obtain ⟨j, x, y, hesc, hi⟩ := (canonical_pack buf).exists_escapeAt hl hres
    have hx := escHi_range x
    obtain rfl | rfl := hi
    · obtain rfl : escHi x = l := Option.some.inj (hesc.first_unit.symm.trans hl)
      omega
    · obtain rfl : escLo y = l := Option.some.inj (hesc.second_unit.symm.trans hl)
      exact ⟨escLo_range hesc.reserved_second, j, escHi x, rfl, hesc.first_unit, hx⟩

theorem codePoint_escHi_escLo (b0 b1 : Byte) :
    codePoint (escHi b0) (escLo b1) = 0x10000 + b0.toNat * 1024 + b1.toNat := by
  have hhi := escHi_toNat b0
  have hlo := escLo_toNat b1
  unfold codePoint
  omega

/-- Settles O55: the bounds are those of `b0` and of a reserved `b1`. -/
theorem escapedPairIsACodePoint : Obligations.EscapedPairIsACodePoint := by
  intro b0 b1 hres
  have hcode := codePoint_escHi_escLo b0 b1
  have hb0 := b0.isLt
  have hb1 := (reserved_iff b1).1 hres
  exact ⟨escHi b0, escLo b1, packPair_escape hres, hcode, by omega, by omega⟩

end Sys2Proof.Machine

namespace Sys2Proof.Machine

/-! An engine's move completes whatever its input (40_packer.md R119, 41_unpacker.md R149, 60_exceptions.md R220). -/

theorem PackerInv.engineStep_completes {s : State} (h : PackerInv s.cfg s.pk) : ∃ t, engineStep .pk s = .next t := by
  cases hrun : s.pk.run with
  | false => exact ⟨s, engineStep_at_rest hrun⟩
  | true =>
    obtain hend | hinside := (h.pos_le_len hrun).eq_or_lt
    · exact ⟨_, (engineStep_pk_atEnd hrun hend).trans (exec_pkHalt_next_iff.2 ⟨⟨hrun, hend⟩, rfl⟩)⟩
    · obtain ⟨b0, b1, hf⟩ := h.exists_fetchPair hrun hinside
      exact ⟨_, engineStep_pk_pair hrun hf⟩

theorem UnpackerInv.engineStep_completes {s : State} (h : UnpackerInv s.cfg s.up) :
    ∃ t, engineStep .up s = .next t := by
  cases hrun : s.up.run with
  | false => exact ⟨s, engineStep_at_rest hrun⟩
  | true =>
    obtain hend | hinside := (h.pos_le_len hrun).eq_or_lt
    · exact ⟨_, (engineStep_up_atEnd hrun hend).trans (exec_upHalt_next_iff.2 ⟨⟨hrun, hend⟩, rfl⟩)⟩
    · obtain ⟨u, hf⟩ := h.exists_fetchUnit hrun hinside
      exact ⟨_, engineStep_up_unit hrun hf⟩

theorem BlockInv.engineStep_completes {s : State} (h : BlockInv s) (e : Engine) : ∃ t, engineStep e s = .next t := by
  cases e with
  | pk => exact h.pk.engineStep_completes
  | up => exact h.up.engineStep_completes

/-- Settles O23: a turn, and a step with no event left, is an engine's move, and under the invariant a running engine
is at its end or has an operand to fetch. -/
theorem engineMovesAlwaysComplete : Obligations.EngineMovesAlwaysComplete := by
  rintro s hinv (hag | ⟨e, rest, hag⟩)
  · rw [step_nil hag, runSilent]
    split
    · exact hinv.engineStep_completes .pk
    · exact hinv.engineStep_completes .up
  · have hpopped : BlockInv (s.withAgenda rest) := ⟨hinv.pk, hinv.up⟩
    rw [step_turn hag]
    exact hpopped.engineStep_completes e

end Sys2Proof.Machine

namespace Sys2Proof.Machine

/-! The reset event (70_reset_and_hazards.md R250, R252). -/

theorem step_reset {s : State} {rest : List Event} (hag : s.agenda = .reset :: rest) :
    step s = .next (s.withAgenda rest).resetBlock :=
  step_cons hag

/-- Settles O1: a reset completes whatever the state, running engines included, and replaces only the two engines. -/
theorem resetPutsBothEnginesAtRest : Obligations.ResetPutsBothEnginesAtRest := by
  intro s rest hag
  exact ⟨_, step_reset hag, ⟨reset_run, reset_len, reset_pos, reset_olen⟩, ⟨reset_run, reset_len, reset_pos, reset_olen⟩,
    fun i => ⟨read_nil i, read_nil i, read_nil i, read_nil i⟩, rfl, rfl, rfl⟩

end Sys2Proof.Machine
